-- ==== Sys2Proof/Word.lean ====
section
/-! DEFINITION. The widths the spec gives values: the 32-bit word of R5 and R6 and the fields of an instruction word (R51, R52). -/

namespace Sys2Proof

/-- A 32-bit pattern: a register value, the program counter or an instruction word (R4: ILEN, XLEN and PCLEN are 32; the
last two are the spec's decisions D1 and D7, log 8, UNVERIFIED; unsafe).
`toNat` is the spec's unsigned reading `u`, `toInt` its signed reading `s` (R6). -/
abbrev Word := BitVec 32

/-- A register number, one of the 5-bit fields `rs`, `rt`, `rd` (R10, R59); every value is legal (R13). -/
abbrev RegIdx := BitVec 5

/-- The 5-bit field `shamt`, decoded and used by no instruction (R59). -/
abbrev Shamt := BitVec 5

/-- The 16-bit field `immediate`, read as a signed number (R52, R56). -/
abbrev Immediate := BitVec 16

/-- The 26-bit field `address` of a jump, a byte address as it stands (R52, R57). -/
abbrev JumpAddress := BitVec 26

end Sys2Proof
end

