-- ==== Sys2Proof/Config.lean ====
section
/-! DEFINITION. The implementation parameters of R4 that are not widths: three fixed numbers, and the one the spec leaves OPEN. -/

namespace Sys2Proof

/-- IMEM_SLOTS of R4: the capacity of the instruction memory, in words. -/
def Config.imemSlots : Nat := 32

/-- IMEM_STRIDE of R4: the address step between two slots. -/
def Config.imemStride : Nat := 4

/-- LINK_REG of R4: the register that JAL writes. -/
def Config.linkReg : RegIdx := 31

/-- DIV_WRITES_HI of R4, left OPEN by the spec (D5, 90_conflicts.md C2): whether DIV also writes the remainder to Hi.
It has no body, so nothing can be proved about which value it has, and a statement about the model holds for both.
log 1 (DESIGN CHOICE: the parameter stands as an opaque constant); safe. -/
opaque Config.divWritesHi : Bool

end Sys2Proof
end

