-- ==== Sys2Proof/Syntax.lean ====
section
/-! DEFINITION. The instruction set as syntax: the ten instructions of spec/opcode_table.json, the eight-field record of the decoder (R52) and the outcome of the dispatch (R58, R62, R63). -/

namespace Sys2Proof

/-- The ten instructions (R1, R58), one constructor per row of spec/opcode_table.json.
The operands are the fields of the row's format in the order of R51, ignored fields included (R60): a word and its
instruction carry the same bits, and no meaning reads an ignored field. log 11 (DESIGN CHOICE: ignored fields are kept in
the syntax); safe. -/
inductive Instr where
  /-- ADD, opcode 0, funct 33 (R70). -/
  | add (rs rt rd : RegIdx) (shamt : Shamt)
  /-- SUB, opcode 0, funct 35 (R71). -/
  | sub (rs rt rd : RegIdx) (shamt : Shamt)
  /-- MULT, opcode 0, funct 25 (R80). -/
  | mult (rs rt rd : RegIdx) (shamt : Shamt)
  /-- DIV, opcode 0, funct 27 (R82). -/
  | div (rs rt rd : RegIdx) (shamt : Shamt)
  /-- MFHI, opcode 0, funct 16 (R83). -/
  | mfhi (rs rt rd : RegIdx) (shamt : Shamt)
  /-- MFLO, opcode 0, funct 18 (R84). -/
  | mflo (rs rt rd : RegIdx) (shamt : Shamt)
  /-- ADDI, opcode 8 (R90). -/
  | addi (rs rt : RegIdx) (imm : Immediate)
  /-- ANDI, opcode 12 (R91). -/
  | andi (rs rt : RegIdx) (imm : Immediate)
  /-- J, opcode 2 (R100). -/
  | j (addr : JumpAddress)
  /-- JAL, opcode 3 (R101). -/
  | jal (addr : JumpAddress)
  deriving DecidableEq, Repr

/-- The record the Instruction Decoder returns for every word: all eight fields, whatever the opcode (R52, R53). -/
structure DecodedInstruction where
  opcode    : BitVec 6
  rs        : RegIdx
  rt        : RegIdx
  rd        : RegIdx
  shamt     : Shamt
  funct     : BitVec 6
  immediate : Immediate
  address   : JumpAddress
  deriving DecidableEq, Repr

/-- What the dispatch of R58 finds in a decoded record: an instruction, or one of the two reasons there is none. -/
inductive Selection where
  /-- One of the ten instructions. -/
  | instr (i : Instr)
  /-- The opcode is none of 0, 2, 3, 8, 12 (R62). -/
  | unsupportedOpcode
  /-- The opcode is 0 and the funct none of 16, 18, 25, 27, 33, 35 (R63). -/
  | unsupportedFunct
  deriving DecidableEq, Repr

end Sys2Proof
end

