-- ==== Sys2Proof/Machine/State.lean ====
section
/-! DEFINITION. The whole state of the machine (10_state.md section 1), its value after reset (R24), and the reasons a step can stop. -/

namespace Sys2Proof.Machine

open Sys2Proof

/-- A populated slot of the instruction memory: a byte address and the raw word resident there (R22). -/
structure InstructionSlot where
  location : Nat
  code     : Word
  deriving DecidableEq, Repr

/-- The instruction memory, the only memory of the hardware (R22, R30): the populated slots in the order they were
appended, and the cursor NextAddr. IMemSize is the number of slots. It maps word addresses to whole words and has no
byte view, as R37 requires. log 4 (DESIGN CHOICE: whole-word slots where the pipeline's other models hold bytes); safe. -/
structure Memory where
  slots    : List InstructionSlot
  nextAddr : Nat
  deriving DecidableEq, Repr

/-- The four kinds of fault a run can end with (R21, R130). -/
inductive RunFault where
  /-- Raised by the Run Loop at the fetch: `pc < NextAddr` and no instruction is resident at `pc` (R131). -/
  | addressFault
  /-- Raised by the Execution Unit: the opcode is none of 0, 2, 3, 8, 12 (R132). -/
  | unsupportedOpcode
  /-- Raised by the Execution Unit: opcode 0 and the funct none of 16, 18, 25, 27, 33, 35 (R133). -/
  | unsupportedFunct
  /-- Raised by the Execution Unit: DIV with a zero divisor (R134). -/
  | divisionByZero
  deriving DecidableEq, Repr

/-- The state of the Run Loop (R21). Halted and Faulted are terminal. -/
inductive RunState where
  /-- Steps are taken. -/
  | running
  /-- The normal end of a run (R114, R119). -/
  | halted
  /-- The run was aborted by a fault of the kind `k` (R135). -/
  | faulted (k : RunFault)
  deriving DecidableEq, Repr

/-- The state of the machine: everything the spec gives it (10_state.md section 1). -/
structure State where
  /-- The 32 general registers; register 0 is one like any other (R10, R11). -/
  x    : Vector Word 32
  /-- The accumulator register Hi (R19). -/
  hi   : Word
  /-- The accumulator register Lo (R19). -/
  lo   : Word
  /-- The program counter, a byte address (R15). -/
  pc   : Word
  /-- The run state (R21). -/
  run  : RunState
  /-- The instruction memory, constant during a run (R22, R41). -/
  imem : Memory
  deriving DecidableEq, Repr

/-- Why the machine answers no state at all. A fault of a RUN is taken as a next state, with `run` set to
`faulted k` (R135, `State.raise`); it is not one of these. log 3 (DESIGN CHOICE: fault entry is a next state); safe. -/
inductive Fault where
  /-- Raised by `step` in a state whose run a fault `k` has already aborted: no step is defined there (R113, R140).
  Safe: the machine takes no step there either (log 3). -/
  | aborted (k : RunFault)
  /-- CapacityExceeded, raised by the loader's operations when a 33rd word is appended, before any run (R136).
  Safe: the spec names this fault (log 5). -/
  | capacityExceeded
  deriving DecidableEq, Repr

/-- Why an instruction has no meaning in the model. -/
inductive Refusal where
  /-- Answered only by an arm of `exec` whose instruction has no meaning yet; no arm does. Safe. -/
  | notModelled (mnemonic : String)
  deriving DecidableEq, Repr

/-- The machine right after reset (R24, R150, R32): `pc` 0, running, the instruction memory empty, every register, Hi
and Lo zero. The zeros of the registers, Hi and Lo are the spec's decision D8 (DESIGN CHOICE, log 2); unsafe if an
implementation starts otherwise, and `launch` takes other start values. -/
def State.reset : State where
  x    := Vector.replicate 32 0
  hi   := 0
  lo   := 0
  pc   := 0
  run  := .running
  imem := { slots := [], nextAddr := 0 }

end Sys2Proof.Machine
end

