-- ==== Sys2Proof/WellFormed.lean ====
section
/-! DEFINITION. What well-formed means for the plain data of the syntax. Every operand of `Instr` has exactly its field's width (R52's value ranges), every register number is legal (R13) and every value of an ignored field is accepted (R60), so every term of `Instr` is well formed by its type and needs no check. The two data that can be ill formed are the decoder's record, whose fields overlap (R53), and a program, which has at most 32 words (R153). -/

namespace Sys2Proof

/-- The first overlap of R53: bits 15 to 0 are `immediate` and also `rd`, `shamt` and `funct` together. -/
def DecodedInstruction.immediateAgrees (d : DecodedInstruction) : Bool :=
  d.immediate.toNat == d.rd.toNat * 2048 + d.shamt.toNat * 64 + d.funct.toNat

/-- The second overlap of R53: bits 25 to 0 are `address` and also `rs`, `rt` and `immediate` together. -/
def DecodedInstruction.addressAgrees (d : DecodedInstruction) : Bool :=
  d.address.toNat == d.rs.toNat * 2 ^ 21 + d.rt.toNat * 2 ^ 16 + d.immediate.toNat

/-- A record that some word decodes to (R52, R53): both overlaps hold. -/
def DecodedInstruction.wellFormed (d : DecodedInstruction) : Bool :=
  d.immediateAgrees && d.addressAgrees

/-- A program the loader may hand over: at most 32 words, whatever their bits (R33, R153). -/
def Program.wellFormed (words : List Word) : Bool :=
  decide (words.length ≤ Config.imemSlots)

end Sys2Proof
end

