-- ==== Sys2Proof/Machine/Ops.lean ====
section
/-! DEFINITION. The named operations: reading and writing registers, the updates the Writeback Unit makes (R111), entering a fault (R135) and halting (R114), the instruction memory's three operations (R32, R33, R34), and loading and launching a program (R152, R153). -/

namespace Sys2Proof.Machine

open Sys2Proof

/-- `x[i]`; register 0 is read like any other (R11; the spec's decision D6, log 6, UNVERIFIED; unsafe). -/
def State.readReg (s : State) (i : RegIdx) : Word := s.x[i.toNat]'i.isLt

/-- `x[i] <- v`; a write to register 0 is performed like any other (R11). -/
def State.writeReg (s : State) (i : RegIdx) (v : Word) : State :=
  { s with x := s.x.set i.toNat v i.isLt }

/-- `Hi <- v` (R19). -/
def State.setHi (s : State) (v : Word) : State := { s with hi := v }

/-- `Lo <- v` (R19). -/
def State.setLo (s : State) (v : Word) : State := { s with lo := v }

/-- `pc <- v` (R15). -/
def State.setPc (s : State) (v : Word) : State := { s with pc := v }

/-- `pc <- pc + 4`, the advance of every instruction that does not jump (R16). -/
def State.advance (s : State) : State := s.setPc (s.pc + 4)

/-- Fault entry, the one way every fault of a run is taken (R135): no register, no Hi, no Lo and no `pc` is written, and
`run <- Faulted(k)`. Nothing is saved and control goes nowhere; there is no return from a fault (R140). -/
def State.raise (s : State) (k : RunFault) : State := { s with run := .faulted k }

/-- The normal end of a run: `run <- Halted`, nothing else (R113, R114). -/
def State.halt (s : State) : State := { s with run := .halted }

/-- The commit of ADD, SUB, MFHI and MFLO to `x[rd]` and of ADDI and ANDI to `x[rt]` (R111). -/
def State.commitReg (s : State) (dest : RegIdx) (result : Word) : State :=
  (s.writeReg dest result).advance

/-- The commit of MULT, which leaves Hi alone (R111, R80). -/
def State.commitLo (s : State) (result : Word) : State := (s.setLo result).advance

/-- The commit of DIV (R111, R82): the quotient to Lo and, when `writesHi`, the remainder to Hi, which else stays. -/
def State.commitDiv (s : State) (writesHi : Bool) (quotient remainder : Word) : State :=
  ((s.setLo quotient).setHi (if writesHi then remainder else s.hi)).advance

/-- IMemSize, the number of populated slots (R22). -/
def Memory.size (m : Memory) : Nat := m.slots.length

/-- `initialize()`: the empty instruction memory (R32). -/
def Memory.initialize : Memory := { slots := [], nextAddr := 0 }

/-- The invariants of R22, the canonical form: the slot at index `i` has location `4 * i`, NextAddr is `4 * IMemSize`,
and there are at most 32 slots. -/
abbrev Memory.wf (m : Memory) : Prop :=
  m.slots.map InstructionSlot.location = (List.range m.size).map (Config.imemStride * ·) ∧
  m.nextAddr = Config.imemStride * m.size ∧
  m.size ≤ Config.imemSlots

/-- `append(word)` (R33): CapacityExceeded when the memory is full, and no memory is made; else one more slot, at NextAddr.
The word is stored as it is. -/
def Memory.append (m : Memory) (w : Word) : Host.Outcome Memory Fault Refusal :=
  if m.size = Config.imemSlots then .fault .capacityExceeded
  else .next { slots := m.slots ++ [{ location := m.nextAddr, code := w }],
               nextAddr := m.nextAddr + Config.imemStride }

/-- The loader's calls of `append`, in program order (R152, R153); it ends at the first CapacityExceeded. -/
def Memory.appendAll (m : Memory) : List Word → Host.Outcome Memory Fault Refusal
  | [] => .next m
  | w :: ws =>
    match m.append w with
    | .next m' => m'.appendAll ws
    | .fault r => .fault r
    | .refused r => .refused r

/-- `IMemLookup(address)` (R34): the word of the slot whose location is exactly the address, or none. -/
def Memory.lookup (m : Memory) (address : Nat) : Option Word :=
  (m.slots.find? (fun slot => slot.location == address)).map InstructionSlot.code

/-- The memory with the code of the slot at an address replaced. The hardware has no such operation (R44); only
`State.withFetchWord` uses it, to stand for a load of another program. -/
def Memory.replaceAt (m : Memory) (address : Nat) (w : Word) : Memory :=
  { m with slots := m.slots.map (fun slot => if slot.location = address then { slot with code := w } else slot) }

/-- A memory of the one word `w`, at address 0. -/
def Memory.single (w : Word) : Memory :=
  { slots := [{ location := 0, code := w }], nextAddr := Config.imemStride }

/-- The halt check of a step: `pc >= NextAddr`, as unsigned numbers (R114). log 10 (DESIGN CHOICE: addresses of the
memory are natural numbers); safe. -/
abbrev State.pastEnd (s : State) : Prop := s.imem.nextAddr ≤ s.pc.toNat

/-- The fetch of a step: `IMemLookup(pc)` (R35). -/
def State.fetch (s : State) : Option Word := s.imem.lookup s.pc.toNat

/-- A launch (R152) with chosen start values of the registers, Hi and Lo (INIT_STATE of R4): the program is appended
word by word to the empty memory, `pc` is 0 and the run is Running. More than 32 words raise CapacityExceeded (R136).
There is no append to a machine that runs. log 5 (DESIGN CHOICE: loading is one operation from the reset state); safe. -/
def launchWith (x : Vector Word 32) (hi lo : Word) (program : List Word) : Host.Outcome State Fault Refusal :=
  match Memory.initialize.appendAll program with
  | .next m => .next { x := x, hi := hi, lo := lo, pc := 0, run := .running, imem := m }
  | .fault r => .fault r
  | .refused r => .refused r

/-- A launch from the reset state: all registers, Hi and Lo zero (R24, R152). -/
def launch (program : List Word) : Host.Outcome State Fault Refusal :=
  launchWith State.reset.x State.reset.hi State.reset.lo program

end Sys2Proof.Machine
end

