-- ==== Sys2Proof/Machine/Operands.lean ====
section
/-! DEFINITION. The operand forms (R56, R57, R59) and the arithmetic of the Execution Unit (R72, R81), whose wrap-around, rounding and extension are the spec's decisions D2, D3, D4 and D15 (log 7, UNVERIFIED: no source outside the spec's own choice; unsafe). Registers are read by `State.readReg`; the two other forms are the sign-extended immediate and the jump address. -/

namespace Sys2Proof.Machine

open Sys2Proof

/-- `wrap32(n)`: the pattern `v` with `u(v) = n mod 2^32` (R6). -/
def wrap32 (n : Int) : Word := BitVec.ofInt 32 n

/-- `sext_16(word[15:0])`, the immediate operand of ADDI and of ANDI alike (R56). -/
def immOperand (imm : Immediate) : Word := imm.signExtend 32

/-- `zext_26(word[25:0])`, the jump target: not shifted, no bit of the old `pc` in it (R57). -/
def jumpTarget (addr : JumpAddress) : Word := addr.setWidth 32

/-- `a + b` on patterns: the low 32 bits of the sum (R72). -/
def sumOf (a b : Word) : Word := a + b

/-- `a - b` on patterns: the low 32 bits of the difference (R72). -/
def differenceOf (a b : Word) : Word := a - b

/-- `a * b` on patterns: the low 32 bits of the product, the same for both readings (R72, R80). -/
def productOf (a b : Word) : Word := a * b

/-- `wrap32(tdiv(s(a), s(b)))`: the signed quotient rounded toward zero; -2^31 / -1 wraps to 0x80000000 (R81). -/
def quotientOf (a b : Word) : Word := wrap32 (a.toInt.tdiv b.toInt)

/-- `wrap32(trem(s(a), s(b)))`: the remainder, zero or with the sign of the dividend (R81). -/
def remainderOf (a b : Word) : Word := wrap32 (a.toInt.tmod b.toInt)

/-- `a & b`, bit by bit (R91). -/
def conjunctionOf (a b : Word) : Word := a &&& b

end Sys2Proof.Machine
end

