-- ==== Sys2Proof/Machine/AddSub.lean ====
section
/-! DEFINITION. ADD and SUB (40_rtype_addsub.md). -/

namespace Sys2Proof.Machine

open Sys2Proof

/-- ADD (R70): `x[rd] <- x[rs] + x[rt]`, wrapping; `pc <- pc + 4`. -/
def execAdd (rs rt rd : RegIdx) (s : State) : Host.Outcome State Fault Refusal :=
  .next (s.commitReg rd (sumOf (s.readReg rs) (s.readReg rt)))

/-- SUB (R71): `x[rd] <- x[rs] - x[rt]`, wrapping; `pc <- pc + 4`. -/
def execSub (rs rt rd : RegIdx) (s : State) : Host.Outcome State Fault Refusal :=
  .next (s.commitReg rd (differenceOf (s.readReg rs) (s.readReg rt)))

end Sys2Proof.Machine
end

