-- ==== Sys2Proof/Machine/Flags.lean ====
section
/-! DEFINITION. The flags of the hardware: there are none. R18: "The hardware has no status flags, no condition codes, no predicates, no carry or overflow bit, no control register, no status register"; every instruction rule says that it writes no flag. This file holds no definition. -/
end

