-- ==== Sys2Proof/Machine/Immediate.lean ====
section
/-! DEFINITION. ADDI and ANDI (42_itype_immediate.md). -/

namespace Sys2Proof.Machine

open Sys2Proof

/-- ADDI (R90): `x[rt] <- x[rs] + sext_16(imm)`, wrapping; `pc <- pc + 4`. -/
def execAddi (rs rt : RegIdx) (imm : Immediate) (s : State) : Host.Outcome State Fault Refusal :=
  .next (s.commitReg rt (sumOf (s.readReg rs) (immOperand imm)))

/-- ANDI (R91): `x[rt] <- x[rs] & sext_16(imm)`; the immediate is sign-extended here too; `pc <- pc + 4`. -/
def execAndi (rs rt : RegIdx) (imm : Immediate) (s : State) : Host.Outcome State Fault Refusal :=
  .next (s.commitReg rt (conjunctionOf (s.readReg rs) (immOperand imm)))

end Sys2Proof.Machine
end

