-- ==== Sys2Proof/Machine/Jump.lean ====
section
/-! DEFINITION. J and JAL (43_jump.md). -/

namespace Sys2Proof.Machine

open Sys2Proof

/-- J (R100): `pc <- zext_26(addr)`; the target is not checked (R102). -/
def execJ (addr : JumpAddress) (s : State) : Host.Outcome State Fault Refusal :=
  .next (s.setPc (jumpTarget addr))

/-- JAL (R101): `x[31] <- pc`, the address of the JAL itself, then `pc <- zext_26(addr)`. -/
def execJal (addr : JumpAddress) (s : State) : Host.Outcome State Fault Refusal :=
  .next ((s.writeReg Config.linkReg s.pc).setPc (jumpTarget addr))

end Sys2Proof.Machine
end

