-- ==== Sys2Proof/Machine/MulDiv.lean ====
section
/-! DEFINITION. MULT, DIV, MFHI and MFLO (41_muldiv_hilo.md). -/

namespace Sys2Proof.Machine

open Sys2Proof

/-- MULT (R80): `Lo <- x[rs] * x[rt]`, the low 32 bits; Hi and the registers stay; `pc <- pc + 4`. -/
def execMult (rs rt : RegIdx) (s : State) : Host.Outcome State Fault Refusal :=
  .next (s.commitLo (productOf (s.readReg rs) (s.readReg rt)))

/-- DIV (R82): with a zero divisor DivisionByZero is taken and nothing else is written; otherwise the quotient goes to
Lo, the remainder to Hi if DIV_WRITES_HI, and `pc <- pc + 4`. -/
def execDiv (rs rt : RegIdx) (s : State) : Host.Outcome State Fault Refusal :=
  if s.readReg rt = 0 then .next (s.raise .divisionByZero)
  else .next (s.commitDiv Config.divWritesHi (quotientOf (s.readReg rs) (s.readReg rt))
    (remainderOf (s.readReg rs) (s.readReg rt)))

/-- MFHI (R83): `x[rd] <- Hi`; `pc <- pc + 4`. -/
def execMfhi (rd : RegIdx) (s : State) : Host.Outcome State Fault Refusal :=
  .next (s.commitReg rd s.hi)

/-- MFLO (R84): `x[rd] <- Lo`; `pc <- pc + 4`. -/
def execMflo (rd : RegIdx) (s : State) : Host.Outcome State Fault Refusal :=
  .next (s.commitReg rd s.lo)

end Sys2Proof.Machine
end

