-- ==== Sys2Proof/Machine/Dispatch.lean ====
section
/-! DEFINITION. The meaning of every instruction, one arm per constructor. -/

namespace Sys2Proof.Machine

open Sys2Proof

def exec (i : Instr) (s : State) : Host.Outcome State Fault Refusal :=
  match i with
  | .add rs rt rd _ => Sys2Proof.Machine.execAdd rs rt rd s
  | .sub rs rt rd _ => Sys2Proof.Machine.execSub rs rt rd s
  | .mult rs rt _ _ => Sys2Proof.Machine.execMult rs rt s
  | .div rs rt _ _ => Sys2Proof.Machine.execDiv rs rt s
  | .mfhi _ _ rd _ => Sys2Proof.Machine.execMfhi rd s
  | .mflo _ _ rd _ => Sys2Proof.Machine.execMflo rd s
  | .addi rs rt imm => Sys2Proof.Machine.execAddi rs rt imm s
  | .andi rs rt imm => Sys2Proof.Machine.execAndi rs rt imm s
  | .j addr => Sys2Proof.Machine.execJ addr s
  | .jal addr => Sys2Proof.Machine.execJal addr s

end Sys2Proof.Machine
end

