-- ==== Sys2Proof/Decode.lean ====
section
/-! DEFINITION. The Instruction Decoder (R52), the dispatch of the Execution Unit (R58, R62, R63) and the encoder (R51, R61). -/

namespace Sys2Proof

/-- The spec's `word[hi:lo]` (R5), with `len = hi - lo + 1`. -/
def bitField (w : Word) (lo len : Nat) : BitVec len := w.extractLsb' lo len

/-- The spec's `decode(word)` (R52): all eight fields of any word; it never fails and never looks at the opcode. -/
def decodeFields (w : Word) : DecodedInstruction where
  opcode    := bitField w 26 6
  rs        := bitField w 21 5
  rt        := bitField w 16 5
  rd        := bitField w 11 5
  shamt     := bitField w 6 5
  funct     := bitField w 0 6
  immediate := bitField w 0 16
  address   := bitField w 0 26

/-- The second level of the dispatch, for opcode 0 (R58, R63). -/
def selectRType (d : DecodedInstruction) : Selection :=
  if d.funct = 33 then .instr (.add d.rs d.rt d.rd d.shamt)
  else if d.funct = 35 then .instr (.sub d.rs d.rt d.rd d.shamt)
  else if d.funct = 25 then .instr (.mult d.rs d.rt d.rd d.shamt)
  else if d.funct = 27 then .instr (.div d.rs d.rt d.rd d.shamt)
  else if d.funct = 16 then .instr (.mfhi d.rs d.rt d.rd d.shamt)
  else if d.funct = 18 then .instr (.mflo d.rs d.rt d.rd d.shamt)
  else .unsupportedFunct

/-- The dispatch by opcode (R58, R62). -/
def select (d : DecodedInstruction) : Selection :=
  if d.opcode = 0 then selectRType d
  else if d.opcode = 2 then .instr (.j d.address)
  else if d.opcode = 3 then .instr (.jal d.address)
  else if d.opcode = 8 then .instr (.addi d.rs d.rt d.immediate)
  else if d.opcode = 12 then .instr (.andi d.rs d.rt d.immediate)
  else .unsupportedOpcode

/-- The instruction of a word, or the name of the reason it has none (R64: there is no third possibility). -/
def decode (w : Word) : Selection := select (decodeFields w)

/-- An R-type word (R51): opcode 0, then `rs`, `rt`, `rd`, `shamt`, `funct`. -/
def encodeR (rs rt rd : RegIdx) (shamt : Shamt) (funct : BitVec 6) : Word :=
  (0 : BitVec 6) ++ rs ++ rt ++ rd ++ shamt ++ funct

/-- An I-type word (R51): opcode, `rs`, `rt`, `immediate`. -/
def encodeI (opcode : BitVec 6) (rs rt : RegIdx) (imm : Immediate) : Word :=
  opcode ++ rs ++ rt ++ imm

/-- A J-type word (R51): opcode, `address`. -/
def encodeJ (opcode : BitVec 6) (addr : JumpAddress) : Word :=
  opcode ++ addr

/-- The word of an instruction (R58, R61), ignored fields as the instruction carries them. -/
def encode : Instr → Word
  | .add rs rt rd shamt  => encodeR rs rt rd shamt 33
  | .sub rs rt rd shamt  => encodeR rs rt rd shamt 35
  | .mult rs rt rd shamt => encodeR rs rt rd shamt 25
  | .div rs rt rd shamt  => encodeR rs rt rd shamt 27
  | .mfhi rs rt rd shamt => encodeR rs rt rd shamt 16
  | .mflo rs rt rd shamt => encodeR rs rt rd shamt 18
  | .addi rs rt imm      => encodeI 8 rs rt imm
  | .andi rs rt imm      => encodeI 12 rs rt imm
  | .j addr              => encodeJ 2 addr
  | .jal addr            => encodeJ 3 addr

/-- The word whose low `nbits` bits are those of `w`, every bit above them 0. -/
def tableWord (nbits w : Nat) : Word := BitVec.ofNat 32 (w % 2 ^ nbits)

/-- What the decoder reads from an instruction whose bits are numbered as spec/opcode_table.json numbers them.
The hardware stores whole words and has no byte order (R37), so the one word goes to the decoder as it stands. -/
def decodeTableWord (nbits w : Nat) : Option Instr :=
  match decode (tableWord nbits w) with
  | .instr i => some i
  | .unsupportedOpcode => none
  | .unsupportedFunct => none

end Sys2Proof
end

