-- ==== Sys2Proof/Machine/Fetch.lean ====
section
/-! DEFINITION. Everything a step does before it executes an instruction: the run state, the halt check, the fetch and the dispatch of the fetched word (R113, R114, R115, R116). -/

namespace Sys2Proof.Machine

open Sys2Proof

/-- What a step finds before execution: its end, or an instruction to execute. -/
inductive Stage where
  /-- The step ends here, with this outcome. -/
  | ends (outcome : Host.Outcome State Fault Refusal)
  /-- The step goes on to execute this instruction. -/
  | runs (i : Instr)

/-- The fetched word goes to the decoder and the dispatch; a word that is no instruction raises its fault (R62, R63).
log 12 (DEDUCED: the Execution Unit's two dispatch faults are raised here, before `exec`, which has only instructions);
safe. -/
def decodeStage (s : State) (w : Word) : Stage :=
  match decode w with
  | .instr i => .runs i
  | .unsupportedOpcode => .ends (.next (s.raise .unsupportedOpcode))
  | .unsupportedFunct => .ends (.next (s.raise .unsupportedFunct))

/-- The halt check, then the fetch (R114, R115): AddressFault when no instruction is resident at `pc`. -/
def fetchStage (s : State) : Stage :=
  if s.pastEnd then .ends (.next s.halt)
  else
    match s.fetch with
    | none => .ends (.next (s.raise .addressFault))
    | some w => decodeStage s w

/-- The stages before execution. A step is defined only in a running state (R113). In the two terminal states (R21):
a halted machine stays as it is; an aborted run has no step, and the machine stops with its fault. log 3 (DESIGN
CHOICE: a halted machine answers itself, an aborted one stops); safe. -/
def beforeExec (s : State) : Stage :=
  match s.run with
  | .running => fetchStage s
  | .halted => .ends (.next s)
  | .faulted k => .ends (.fault (.aborted k))

/-- Whether the step's halt check passes and its fetch finds an instruction. -/
abbrev State.resident (s : State) : Prop := ¬ s.pastEnd ∧ s.fetch.isSome = true

/-- The state with the word `w` where the next fetch reads it, running. Where an instruction is resident at `pc` its word
is replaced; elsewhere the loaded program becomes the one word `w` at the reset vector, and `pc` goes there. It stands
for a load from outside the machine (R152); no step does this (log 9, DESIGN CHOICE; safe). -/
def State.placeWord (s : State) (w : Word) : State :=
  if s.resident then { s with run := .running, imem := s.imem.replaceAt s.pc.toNat w }
  else { s with run := .running, pc := 0, imem := Memory.single w }

end Sys2Proof.Machine
end

