-- ==== Sys2Proof/Machine/Step.lean ====
section
/-! DEFINITION. One step of the Run Loop (R113): halt check, fetch, decode, execute and writeback as one atomic transition (R121). -/

namespace Sys2Proof.Machine

open Sys2Proof

/-- One pass of the Run Loop's transition rule (R113). -/
def step (s : State) : Host.Outcome State Fault Refusal :=
  match beforeExec s with
  | .ends o => o
  | .runs i => exec i s

/-- The state in which the next step fetches the instruction whose low `nbits` bits are those of `w`. -/
def State.withFetchWord (s : State) (nbits w : Nat) : State :=
  s.placeWord (tableWord nbits w)

end Sys2Proof.Machine
end

