-- ==== Sys2Proof/Safety.lean ====
section
/-! DEFINITION. The terms the statements are made in: the opcode table's rows (R58), what an instruction reads and writes (R13, R16, R19, R60), the spec's pseudocode of a step written from R110, R111 and R113, and the invariant of the machine (R17, R22, R119, R131 to R134). Nothing here is used by the machine. -/

namespace Sys2Proof

/-- A row of the opcode map (R58): a word `w` is the row's instruction exactly when `w & mask = match`. -/
structure OpcodeRow where
  matchBits : Word
  mask      : Word
  deriving DecidableEq, Repr

/-- The row of each instruction, in the numbers of R58. -/
def Instr.row : Instr → OpcodeRow
  | .add _ _ _ _  => { matchBits := 0x00000021, mask := 0xFC00003F }
  | .sub _ _ _ _  => { matchBits := 0x00000023, mask := 0xFC00003F }
  | .mult _ _ _ _ => { matchBits := 0x00000019, mask := 0xFC00003F }
  | .div _ _ _ _  => { matchBits := 0x0000001B, mask := 0xFC00003F }
  | .mfhi _ _ _ _ => { matchBits := 0x00000010, mask := 0xFC00003F }
  | .mflo _ _ _ _ => { matchBits := 0x00000012, mask := 0xFC00003F }
  | .addi _ _ _   => { matchBits := 0x20000000, mask := 0xFC000000 }
  | .andi _ _ _   => { matchBits := 0x30000000, mask := 0xFC000000 }
  | .j _          => { matchBits := 0x08000000, mask := 0xFC000000 }
  | .jal _        => { matchBits := 0x0C000000, mask := 0xFC000000 }

/-- The ten rows of the opcode map, in its order (R58). -/
def opcodeRows : List OpcodeRow :=
  [(Instr.add 0 0 0 0).row, (Instr.sub 0 0 0 0).row, (Instr.mult 0 0 0 0).row, (Instr.div 0 0 0 0).row,
   (Instr.mfhi 0 0 0 0).row, (Instr.mflo 0 0 0 0).row, (Instr.addi 0 0 0).row, (Instr.andi 0 0 0).row,
   (Instr.j 0).row, (Instr.jal 0).row]

/-- The bits of an instruction's word that are not in an ignored field (R60): ADD and SUB ignore `shamt`; MULT and DIV
ignore `rd` and `shamt`; MFHI and MFLO ignore `rs`, `rt` and `shamt`; the others ignore nothing. -/
def Instr.usedBits : Instr → Word
  | .add _ _ _ _ | .sub _ _ _ _   => 0xFFFFF83F
  | .mult _ _ _ _ | .div _ _ _ _  => 0xFFFF003F
  | .mfhi _ _ _ _ | .mflo _ _ _ _ => 0xFC00F83F
  | .addi _ _ _ | .andi _ _ _ | .j _ | .jal _ => 0xFFFFFFFF

/-- The general register an instruction writes, the column "writes" of R13. -/
def Instr.dest : Instr → Option RegIdx
  | .add _ _ rd _ | .sub _ _ rd _ | .mfhi _ _ rd _ | .mflo _ _ rd _ => some rd
  | .addi _ rt _ | .andi _ rt _ => some rt
  | .jal _ => some 31
  | .mult _ _ _ _ | .div _ _ _ _ | .j _ => none

/-- The general registers an instruction reads, the column "reads" of R13. -/
def Instr.sources : Instr → List RegIdx
  | .add rs rt _ _ | .sub rs rt _ _ | .mult rs rt _ _ | .div rs rt _ _ => [rs, rt]
  | .addi rs _ _ | .andi rs _ _ => [rs]
  | .mfhi _ _ _ _ | .mflo _ _ _ _ | .j _ | .jal _ => []

/-- MULT and DIV, the only instructions that write Lo (R19). -/
def Instr.writesLo : Instr → Bool
  | .mult _ _ _ _ | .div _ _ _ _ => true
  | .add _ _ _ _ | .sub _ _ _ _ | .mfhi _ _ _ _ | .mflo _ _ _ _ | .addi _ _ _ | .andi _ _ _ | .j _ | .jal _ => false

/-- DIV, the only instruction that can write Hi, and the only one that can raise a fault of its own (R19, R130). -/
def Instr.isDiv : Instr → Bool
  | .div _ _ _ _ => true
  | .add _ _ _ _ | .sub _ _ _ _ | .mult _ _ _ _ | .mfhi _ _ _ _ | .mflo _ _ _ _ | .addi _ _ _ | .andi _ _ _
  | .j _ | .jal _ => false

/-- MFHI, the only instruction that reads Hi (R19). -/
def Instr.readsHi : Instr → Bool
  | .mfhi _ _ _ _ => true
  | .add _ _ _ _ | .sub _ _ _ _ | .mult _ _ _ _ | .div _ _ _ _ | .mflo _ _ _ _ | .addi _ _ _ | .andi _ _ _
  | .j _ | .jal _ => false

/-- MFLO, the only instruction that reads Lo (R19). -/
def Instr.readsLo : Instr → Bool
  | .mflo _ _ _ _ => true
  | .add _ _ _ _ | .sub _ _ _ _ | .mult _ _ _ _ | .div _ _ _ _ | .mfhi _ _ _ _ | .addi _ _ _ | .andi _ _ _
  | .j _ | .jal _ => false

/-- The value an instruction at address `pc` leaves in `pc` when it completes (R16). -/
def Instr.nextPc (i : Instr) (pc : Word) : Word :=
  match i with
  | .j addr | .jal addr => BitVec.ofNat 32 addr.toNat
  | .add _ _ _ _ | .sub _ _ _ _ | .mult _ _ _ _ | .div _ _ _ _ | .mfhi _ _ _ _ | .mflo _ _ _ _
  | .addi _ _ _ | .andi _ _ _ => pc + 4

end Sys2Proof

namespace Sys2Proof.Reference

open Sys2Proof Sys2Proof.Machine

/-- What the spec's `execute` returns (R110): a value, a quotient and a remainder, or a fault it raises. -/
inductive Result where
  | value (v : Word)
  | quotRem (q r : Word)
  | raises (k : RunFault)

/-- The spec's `execute(d, S)`, transcribed arm by arm from R110, with the arithmetic written in the numbers of R6. -/
def execute (d : DecodedInstruction) (s : State) : Result :=
  if d.opcode = 0 then
    if d.funct = 33 then .value (BitVec.ofNat 32 ((s.readReg d.rs).toNat + (s.readReg d.rt).toNat))
    else if d.funct = 35 then .value (BitVec.ofInt 32 ((s.readReg d.rs).toNat - (s.readReg d.rt).toNat))
    else if d.funct = 25 then .value (BitVec.ofNat 32 ((s.readReg d.rs).toNat * (s.readReg d.rt).toNat))
    else if d.funct = 27 then
      if s.readReg d.rt = 0 then .raises .divisionByZero
      else .quotRem (BitVec.ofInt 32 ((s.readReg d.rs).toInt.tdiv (s.readReg d.rt).toInt))
        (BitVec.ofInt 32 ((s.readReg d.rs).toInt.tmod (s.readReg d.rt).toInt))
    else if d.funct = 16 then .value s.hi
    else if d.funct = 18 then .value s.lo
    else .raises .unsupportedFunct
  else if d.opcode = 2 ∨ d.opcode = 3 then .value (BitVec.ofNat 32 d.address.toNat)
  else if d.opcode = 8 then .value (BitVec.ofInt 32 ((s.readReg d.rs).toNat + d.immediate.toInt))
  else if d.opcode = 12 then .value (s.readReg d.rs &&& BitVec.ofInt 32 d.immediate.toInt)
  else .raises .unsupportedOpcode

/-- The spec's `commit(res, d, S)` for a result that is one value, transcribed from R111. -/
def commitValue (v : Word) (d : DecodedInstruction) (s : State) : State :=
  if d.opcode = 0 then
    if d.funct = 25 then { s with lo := v, pc := s.pc + 4 }
    else { s with x := s.x.set d.rd.toNat v d.rd.isLt, pc := s.pc + 4 }
  else if d.opcode = 2 then { s with pc := v }
  else if d.opcode = 3 then { s with x := s.x.set 31 s.pc, pc := v }
  else { s with x := s.x.set d.rt.toNat v d.rt.isLt, pc := s.pc + 4 }

/-- The spec's `commit(res, d, S)` in its DIV arm (R111): the quotient to Lo and, if DIV_WRITES_HI, the remainder to Hi. -/
def commitQuotRem (q r : Word) (s : State) : State :=
  { s with lo := q, hi := if Config.divWritesHi then r else s.hi, pc := s.pc + 4 }

/-- The spec's `step(S)`, transcribed from R113, for a state whose run is Running. -/
def step (s : State) : State :=
  if s.pc.toNat ≥ s.imem.nextAddr then { s with run := .halted }
  else
    match s.imem.lookup s.pc.toNat with
    | none => { s with run := .faulted .addressFault }
    | some w =>
      match execute (decodeFields w) s with
      | .raises k => { s with run := .faulted k }
      | .value v => commitValue v (decodeFields w) s
      | .quotRem q r => commitQuotRem q r s

end Sys2Proof.Reference

namespace Sys2Proof.Machine

open Sys2Proof

/-- Why a run was aborted, read off the state it left: a faulting step changes nothing but `run`, so `pc` is still the
address at which the fault arose and the word there is still resident (R131 to R134, R137). -/
def State.faultCause (s : State) (k : RunFault) : Prop :=
  s.pc.toNat < s.imem.nextAddr ∧
  match k with
  | .addressFault => s.imem.lookup s.pc.toNat = none
  | .unsupportedOpcode => ∃ w, s.imem.lookup s.pc.toNat = some w ∧
      (decodeFields w).opcode.toNat ∉ [0, 2, 3, 8, 12]
  | .unsupportedFunct => ∃ w, s.imem.lookup s.pc.toNat = some w ∧ (decodeFields w).opcode = 0 ∧
      (decodeFields w).funct.toNat ∉ [16, 18, 25, 27, 33, 35]
  | .divisionByZero => ∃ w, s.imem.lookup s.pc.toNat = some w ∧ (decodeFields w).opcode = 0 ∧
      (decodeFields w).funct = 27 ∧ s.readReg (decodeFields w).rt = 0

/-- The invariant of the machine: the instruction memory has its form (R22), bits 31 to 26 of `pc` are zero (R17), a
halted run has `pc >= NextAddr` (R119), and an aborted run stands at the cause of its fault (R131 to R134). -/
def State.Inv (s : State) : Prop :=
  s.imem.wf ∧ s.pc.toNat < 2 ^ 26 ∧
  match s.run with
  | .running => True
  | .halted => s.imem.nextAddr ≤ s.pc.toNat
  | .faulted k => s.faultCause k

/-- Two states that may differ in the registers, Hi and Lo only: what decides the path of a program (R103). -/
def State.samePath (s s' : State) : Prop := s.pc = s'.pc ∧ s.run = s'.run ∧ s.imem = s'.imem

end Sys2Proof.Machine
end

