-- ==== Sys2Proof/Certificates/Slice0/Obligations.lean ====
section
/-! DEFINITION. The statements for the provers. Each docstring says which rule or section of spec/ it formalises; where a clause rests on one of the spec's own decisions D<n> (92_eei_decisions.md) or on the model's choice, the docstring names it. -/

open Sys2Proof Sys2Proof.Machine

/-! ### The decoder and the encoding (30_encoding.md) -/

/-- R52: the eight fields of any word by the shifts and masks of its table, the immediate read as signed 16 bits, and the
rule's worked example. -/
def Obligations.DecoderFieldsAreBitSlices : Prop :=
  (∀ w : Word,
    (decodeFields w).opcode.toNat = (w.toNat >>> 26) &&& 0x3F ∧
    (decodeFields w).rs.toNat = (w.toNat >>> 21) &&& 0x1F ∧
    (decodeFields w).rt.toNat = (w.toNat >>> 16) &&& 0x1F ∧
    (decodeFields w).rd.toNat = (w.toNat >>> 11) &&& 0x1F ∧
    (decodeFields w).shamt.toNat = (w.toNat >>> 6) &&& 0x1F ∧
    (decodeFields w).funct.toNat = w.toNat &&& 0x3F ∧
    (decodeFields w).immediate.toNat = w.toNat &&& 0xFFFF ∧
    (decodeFields w).immediate.toInt =
      (if w.toNat &&& 0xFFFF < 32768 then ((w.toNat &&& 0xFFFF : Nat) : Int)
       else ((w.toNat &&& 0xFFFF : Nat) : Int) - 65536) ∧
    (decodeFields w).address.toNat = w.toNat &&& 0x3FFFFFF) ∧
  decodeFields 0x21280096 =
    { opcode := 8, rs := 9, rt := 8, rd := 0, shamt := 2, funct := 22, immediate := 150, address := 19398806 }

/-- 30_encoding.md section 2 (the overlaps of R53, derived there): the record of a word is well formed, the word is
`opcode * 2^26 + address`, and every well-formed record is the record of a word that `opcode` and `address` give. -/
def Obligations.RecordKeepsEveryBit : Prop :=
  (∀ w : Word, (decodeFields w).wellFormed = true ∧
    w.toNat = (decodeFields w).opcode.toNat * 2 ^ 26 + (decodeFields w).address.toNat) ∧
  (∀ d : DecodedInstruction, d.wellFormed = true →
    decodeFields (BitVec.ofNat 32 (d.opcode.toNat * 2 ^ 26 + d.address.toNat)) = d)

/-- 30_encoding.md section 4 (encoding as the inverse of decoding): for every instruction, with every value of every field,
ignored fields included, decoding its word gives it back. -/
def Obligations.DecodeOfEncode : Prop := ∀ i : Instr, decode (encode i) = .instr i

/-- The other direction: a word that decodes to an instruction is the encoding of it, so each supported word has one
meaning and no bit of it is dropped. -/
def Obligations.EncodeOfDecode : Prop := ∀ (w : Word) (i : Instr), decode w = .instr i → encode i = w

/-- R58: a word is the instruction of a row exactly when `w & mask = match`; the ten rows do not overlap; a word that
matches no row is no instruction, and the step that fetches it raises a fault. -/
def Obligations.OpcodeTableDecides : Prop :=
  (∀ r ∈ opcodeRows, ∀ w : Word, (∃ i, decode w = .instr i ∧ i.row = r) ↔ w &&& r.mask = r.matchBits) ∧
  (∀ r ∈ opcodeRows, ∀ r' ∈ opcodeRows, ∀ w : Word,
    w &&& r.mask = r.matchBits → w &&& r'.mask = r'.matchBits → r = r') ∧
  (∀ (s : State) (w : Word), s.run = .running → s.pc.toNat < s.imem.nextAddr →
    s.imem.lookup s.pc.toNat = some w → (∀ r ∈ opcodeRows, w &&& r.mask ≠ r.matchBits) →
    ∃ k, step s = .next { s with run := .faulted k })

/-- R62: a fetched word whose opcode is none of 0, 2, 3, 8, 12 raises UnsupportedOpcode; the other 26 bits do not matter
and nothing else is written. -/
def Obligations.UnlistedOpcodeRaisesUnsupportedOpcode : Prop :=
  ∀ (s : State) (w : Word), s.run = .running → s.pc.toNat < s.imem.nextAddr →
    s.imem.lookup s.pc.toNat = some w → (w.toNat >>> 26) &&& 0x3F ∉ [0, 2, 3, 8, 12] →
    step s = .next { s with run := .faulted .unsupportedOpcode }

/-- R63: a fetched word with opcode 0 whose funct is none of 16, 18, 25, 27, 33, 35 raises UnsupportedFunct; the register
and `shamt` fields do not matter and nothing else is written. -/
def Obligations.UnlistedFunctRaisesUnsupportedFunct : Prop :=
  ∀ (s : State) (w : Word), s.run = .running → s.pc.toNat < s.imem.nextAddr →
    s.imem.lookup s.pc.toNat = some w → (w.toNat >>> 26) &&& 0x3F = 0 →
    w.toNat &&& 0x3F ∉ [16, 18, 25, 27, 33, 35] →
    step s = .next { s with run := .faulted .unsupportedFunct }

/-- Sanity: one word of each instruction, from the worked examples of files 40 to 43, decodes to the instruction it stands
for, and the source's illustrative word 0x01095020 to none. -/
def Obligations.WorkedExampleWordsDecode : Prop :=
  decode 0x01095021 = .instr (.add 8 9 10 0) ∧ decode 0x01095023 = .instr (.sub 8 9 10 0) ∧
  decode 0x01090019 = .instr (.mult 8 9 0 0) ∧ decode 0x0109001B = .instr (.div 8 9 0 0) ∧
  decode 0x00005010 = .instr (.mfhi 0 0 10 0) ∧ decode 0x00005012 = .instr (.mflo 0 0 10 0) ∧
  decode 0x21280096 = .instr (.addi 9 8 150) ∧ decode 0x312800FF = .instr (.andi 9 8 0x00FF) ∧
  decode 0x0800001C = .instr (.j 28) ∧ decode 0x0C00001C = .instr (.jal 28) ∧
  decode 0x01095020 = .unsupportedFunct

/-- 30_encoding.md section 4 (the ignored fields of R60, derived there): a word that differs from an instruction's word in
ignored fields only decodes to an instruction that does the same in every state. -/
def Obligations.IgnoredFieldsHaveNoEffect : Prop :=
  ∀ (w w' : Word) (i : Instr), decode w = .instr i → w &&& i.usedBits = w' &&& i.usedBits →
    ∃ i', decode w' = .instr i' ∧ i'.row = i.row ∧ ∀ s, exec i' s = exec i s

/-! ### The ten instructions (files 40 to 43) -/

/-- ADD completes: `x[rd]` gets the low 32 bits of the sum, whichever way the operands are read, and `pc` advances by 4.
Wrap-around is the spec's decision D2. -/
def Obligations.AddWritesWrappedSum : Prop :=
  ∀ (rs rt rd : RegIdx) (shamt : Shamt) (s : State), ∃ v : Word,
    v.toNat = ((s.readReg rs).toNat + (s.readReg rt).toNat) % 2 ^ 32 ∧
    v = BitVec.ofInt 32 ((s.readReg rs).toInt + (s.readReg rt).toInt) ∧
    exec (.add rs rt rd shamt) s =
      .next { s with x := s.x.set rd.toNat v rd.isLt, pc := s.pc + 4 }

/-- SUB completes: `x[rd]` gets the low 32 bits of `x[rs]` minus `x[rt]`, whichever way the operands are read, and `pc`
advances by 4. Wrap-around is the spec's decision D2. -/
def Obligations.SubWritesWrappedDifference : Prop :=
  ∀ (rs rt rd : RegIdx) (shamt : Shamt) (s : State), ∃ v : Word,
    (v.toNat : Int) = ((s.readReg rs).toNat - (s.readReg rt).toNat : Int) % 2 ^ 32 ∧
    v = BitVec.ofInt 32 ((s.readReg rs).toInt - (s.readReg rt).toInt) ∧
    exec (.sub rs rt rd shamt) s =
      .next { s with x := s.x.set rd.toNat v rd.isLt, pc := s.pc + 4 }

/-- MULT completes: Lo gets the low 32 bits of the product, whichever way the operands are read; Hi and every register
stay (the spec's decision D14); `pc` advances by 4. Wrap-around is the spec's decision D2. -/
def Obligations.MultWritesLowProductToLo : Prop :=
  ∀ (rs rt rd : RegIdx) (shamt : Shamt) (s : State), ∃ v : Word,
    v.toNat = ((s.readReg rs).toNat * (s.readReg rt).toNat) % 2 ^ 32 ∧
    v = BitVec.ofInt 32 ((s.readReg rs).toInt * (s.readReg rt).toInt) ∧
    exec (.mult rs rt rd shamt) s = .next { s with lo := v, pc := s.pc + 4 }

/-- DIV with a divisor that is not zero completes: for the signed readings `a` of the dividend and `b` of the divisor
there are a quotient `q` and a remainder `r` with `a = q * b + r`, `|r| < |b|` and `r` zero or of the sign of `a`; Lo gets
`q` and, if DIV_WRITES_HI, Hi gets `r`, both reduced to 32 bits; `pc` advances by 4 and nothing else changes. Rounding is
the spec's decision D3, the reduction D4, and the parameter is open (D5, log 1): the statement holds for both values. -/
def Obligations.DivWritesSignedQuotient : Prop :=
  ∀ (rs rt rd : RegIdx) (shamt : Shamt) (s : State), s.readReg rt ≠ 0 → ∃ q r : Int,
    (s.readReg rs).toInt = q * (s.readReg rt).toInt + r ∧
    |r| < |(s.readReg rt).toInt| ∧
    (r = 0 ∨ r.sign = (s.readReg rs).toInt.sign) ∧
    exec (.div rs rt rd shamt) s =
      .next { s with lo := BitVec.ofInt 32 q,
                     hi := if Config.divWritesHi then BitVec.ofInt 32 r else s.hi,
                     pc := s.pc + 4 }

/-- DIV of 0x80000000 by 0xFFFFFFFF, the one quotient that does not fit: Lo gets 0x80000000, the remainder is 0, and no
fault is raised. This is the spec's decision D4. -/
def Obligations.DivOverflowWraps : Prop :=
  ∀ (rs rt rd : RegIdx) (shamt : Shamt) (s : State), s.readReg rs = 0x80000000 → s.readReg rt = 0xFFFFFFFF →
    exec (.div rs rt rd shamt) s =
      .next { s with lo := 0x80000000, hi := if Config.divWritesHi then 0 else s.hi, pc := s.pc + 4 }

/-- R134: DIV with a zero divisor, whatever the dividend, raises DivisionByZero; Lo, Hi and `pc` are unchanged, and a step
that executes it leaves `pc` at the DIV. -/
def Obligations.DivByZeroRaises : Prop :=
  (∀ (rs rt rd : RegIdx) (shamt : Shamt) (s : State), s.readReg rt = 0 →
    exec (.div rs rt rd shamt) s = .next { s with run := .faulted .divisionByZero }) ∧
  (∀ (rs rt rd : RegIdx) (shamt : Shamt) (s : State), s.run = .running → s.pc.toNat < s.imem.nextAddr →
    s.imem.lookup s.pc.toNat = some (encode (.div rs rt rd shamt)) → s.readReg rt = 0 →
    step s = .next { s with run := .faulted .divisionByZero })

/-- R83: MFHI completes: `x[rd]` gets Hi, `pc` advances by 4, Hi and everything else stay; it does so from every word with
opcode 0 and funct 16, whatever `rs`, `rt` and `shamt` are. -/
def Obligations.MfhiCopiesHi : Prop :=
  (∀ (rs rt rd : RegIdx) (shamt : Shamt) (s : State),
    exec (.mfhi rs rt rd shamt) s =
      .next { s with x := s.x.set rd.toNat s.hi rd.isLt, pc := s.pc + 4 }) ∧
  (∀ w : Word, w &&& 0xFC00003F = 0x00000010 →
    ∃ rs rt shamt, decode w = .instr (.mfhi rs rt (w.extractLsb' 11 5) shamt))

/-- R84: MFLO completes: `x[rd]` gets Lo, `pc` advances by 4, Lo and everything else stay; it does so from every word with
opcode 0 and funct 18, whatever `rs`, `rt` and `shamt` are. -/
def Obligations.MfloCopiesLo : Prop :=
  (∀ (rs rt rd : RegIdx) (shamt : Shamt) (s : State),
    exec (.mflo rs rt rd shamt) s =
      .next { s with x := s.x.set rd.toNat s.lo rd.isLt, pc := s.pc + 4 }) ∧
  (∀ w : Word, w &&& 0xFC00003F = 0x00000012 →
    ∃ rs rt shamt, decode w = .instr (.mflo rs rt (w.extractLsb' 11 5) shamt))

/-- ADDI completes: `x[rt]` gets the signed value of `x[rs]` plus the signed immediate, reduced to 32 bits, and `pc`
advances by 4. The sign extension is the spec's decision D15, the wrap-around D2. -/
def Obligations.AddiAddsSignedImmediate : Prop :=
  ∀ (rs rt : RegIdx) (imm : Immediate) (s : State),
    exec (.addi rs rt imm) s =
      .next { s with x := s.x.set rt.toNat (BitVec.ofInt 32 ((s.readReg rs).toInt + imm.toInt)) rt.isLt,
                     pc := s.pc + 4 }

/-- ANDI completes: bit `j` of `x[rt]` is bit `j` of `x[rs]` and bit `j` of the field, where bits 31 to 16 of the operand
are copies of bit 15 of the field; `pc` advances by 4. The sign extension is the spec's decision D15. -/
def Obligations.AndiAndsSignExtendedImmediate : Prop :=
  ∀ (rs rt : RegIdx) (imm : Immediate) (s : State), ∃ v : Word,
    (∀ j, j < 32 → v.getLsbD j = ((s.readReg rs).getLsbD j && imm.getLsbD (if j < 15 then j else 15))) ∧
    exec (.andi rs rt imm) s = .next { s with x := s.x.set rt.toNat v rt.isLt, pc := s.pc + 4 }

/-- R100: J completes: `pc` gets the 26-bit field as a byte address, not shifted; no register, Hi or Lo is written; it does
so from every word with opcode 2. -/
def Obligations.JumpSetsPcToRawField : Prop :=
  (∀ (addr : JumpAddress) (s : State),
    exec (.j addr) s = .next { s with pc := BitVec.ofNat 32 addr.toNat }) ∧
  (∀ w : Word, w &&& 0xFC000000 = 0x08000000 → decode w = .instr (.j (w.extractLsb' 0 26)))

/-- R101: JAL completes: `x[31]` gets the old `pc`, the address of the JAL itself, and `pc` the 26-bit field as it stands;
Hi, Lo and the other registers stay; it does so from every word with opcode 3. -/
def Obligations.JalLinksItsOwnAddress : Prop :=
  (∀ (addr : JumpAddress) (s : State),
    exec (.jal addr) s = .next { s with x := s.x.set 31 s.pc, pc := BitVec.ofNat 32 addr.toNat }) ∧
  (∀ w : Word, w &&& 0xFC000000 = 0x0C000000 → decode w = .instr (.jal (w.extractLsb' 0 26)))

/-! ### Frames and access (10_state.md) -/

/-- The frame of all ten instructions (10_state.md sections 2, 5 and 7): only the destination register is written; only
MULT and DIV write Lo; only DIV can write Hi, and only if DIV_WRITES_HI (D5); `run` changes only by DIV's DivisionByZero; the
instruction memory is unchanged, word for word. -/
def Obligations.InstructionsWriteOnlyTheirDestinations : Prop :=
  ∀ (i : Instr) (s t : State), exec i s = .next t →
    (∀ r, i.dest ≠ some r → t.readReg r = s.readReg r) ∧
    (i.writesLo = false → t.lo = s.lo) ∧
    (i.isDiv = false → t.hi = s.hi) ∧
    (t.hi = s.hi ∨ Config.divWritesHi = true) ∧
    (t.run = s.run ∨ (t.run = .faulted .divisionByZero ∧
      ∃ rs rt rd shamt, i = .div rs rt rd shamt ∧ s.readReg rt = 0)) ∧
    t.imem = s.imem ∧ (∀ a, t.imem.lookup a = s.imem.lookup a)

/-- What an instruction reads (the table of 10_state.md section 2): two running states that agree in `pc`, in the registers
the instruction reads and, for MFHI and MFLO, in Hi and Lo, are left with the same `pc`, the same `run` and the same value in
everything the instruction writes. -/
def Obligations.ResultsDependOnlyOnSources : Prop :=
  ∀ (i : Instr) (s s' t t' : State), s.run = .running → s'.run = .running → s.pc = s'.pc →
    (∀ r ∈ i.sources, s.readReg r = s'.readReg r) →
    (i.readsHi = true → s.hi = s'.hi) → (i.readsLo = true → s.lo = s'.lo) →
    exec i s = .next t → exec i s' = .next t' →
    t.pc = t'.pc ∧ t.run = t'.run ∧
    (∀ r, i.dest = some r → t.readReg r = t'.readReg r) ∧
    (i.writesLo = true → t.run = .running → t.lo = t'.lo) ∧
    (i.isDiv = true → t.hi = t'.hi ∨ (t.hi = s.hi ∧ t'.hi = s'.hi))

/-- R16: how `pc` moves, in every state. A step that completes an instruction leaves `pc + 4`, or the raw field for J and
JAL; any other step (it halts, it raises a fault, the run has ended) leaves `pc` as it was. -/
def Obligations.PcMovesOnlyByInstructions : Prop :=
  ∀ s t : State, step s = .next t →
    (t.pc = s.pc ∧ (s.run ≠ .running ∨ t.run ≠ .running)) ∨
    (∃ w i, s.imem.lookup s.pc.toNat = some w ∧ decode w = .instr i ∧ t.run = .running ∧ t.pc = i.nextPc s.pc)

/-- Who writes Hi and Lo (10_state.md section 5), over a step: Lo changes only by a MULT or a DIV; Hi only by a DIV, only
if DIV_WRITES_HI, and then it holds the remainder (D5, D14). -/
def Obligations.HiAndLoWriters : Prop :=
  ∀ s t : State, step s = .next t →
    (t.lo = s.lo ∨ ∃ w i, s.imem.lookup s.pc.toNat = some w ∧ decode w = .instr i ∧ i.writesLo = true) ∧
    (t.hi = s.hi ∨ ∃ w rs rt rd shamt, s.imem.lookup s.pc.toNat = some w ∧
      decode w = .instr (.div rs rt rd shamt) ∧ Config.divWritesHi = true ∧
      t.hi = BitVec.ofInt 32 ((s.readReg rs).toInt.tmod (s.readReg rt).toInt))

/-- Register 0 is an ordinary register (10_state.md section 2; the spec's decision D6): an ADD into register 0 changes it
and a following ADDI reads what was written, in register 0 itself too. -/
def Obligations.RegisterZeroIsOrdinary : Prop :=
  ∀ (rs rt r : RegIdx) (shamt : Shamt) (imm : Immediate) (s : State), ∃ t u,
    exec (.add rs rt 0 shamt) s = .next t ∧ t.readReg 0 = s.readReg rs + s.readReg rt ∧
    (∀ r', r' ≠ 0 → t.readReg r' = s.readReg r') ∧
    exec (.addi 0 r imm) t = .next u ∧
    u.readReg r = s.readReg rs + s.readReg rt + BitVec.ofInt 32 imm.toInt

/-- No Hi/Lo latency (70_reset_and_hazards.md section 4). After a MULT, MFLO moves the product and MFHI moves the Hi that
MULT leaves alone; after a DIV that does not fault, MFLO moves the quotient and MFHI moves whatever Hi then holds; a MULT or
a DIV right after an MFLO or an MFHI, faulting or not, does not disturb the moved value. The product and the quotient rest on
the spec's decisions D2, D3 and D4, MULT's untouched Hi on D14 (log 7), and what DIV leaves in Hi on the open parameter
(D5, log 1): the statement holds for both values. -/
def Obligations.HiLoHaveNoLatency : Prop :=
  (∀ (rs rt rd rd' ra rb : RegIdx) (sh sh' : Shamt) (s : State), ∃ t u v,
    exec (.mult rs rt rd sh) s = .next t ∧
    exec (.mflo ra rb rd' sh') t = .next u ∧ u.readReg rd' = s.readReg rs * s.readReg rt ∧
    exec (.mfhi ra rb rd' sh') t = .next v ∧ v.readReg rd' = s.hi) ∧
  (∀ (rs rt rd rd' ra rb : RegIdx) (sh sh' : Shamt) (s : State), s.readReg rt ≠ 0 → ∃ t u v,
    exec (.div rs rt rd sh) s = .next t ∧ exec (.mflo ra rb rd' sh') t = .next u ∧
    u.readReg rd' = BitVec.ofInt 32 ((s.readReg rs).toInt.tdiv (s.readReg rt).toInt) ∧
    exec (.mfhi ra rb rd' sh') t = .next v ∧
    v.readReg rd' = (if Config.divWritesHi then
      BitVec.ofInt 32 ((s.readReg rs).toInt.tmod (s.readReg rt).toInt) else s.hi)) ∧
  (∀ (rs rt rd rd' ra rb : RegIdx) (sh sh' : Shamt) (s : State), ∃ t u v,
    exec (.mflo ra rb rd' sh') s = .next t ∧
    exec (.mult rs rt rd sh) t = .next u ∧ u.readReg rd' = s.lo ∧
    exec (.div rs rt rd sh) t = .next v ∧ v.readReg rd' = s.lo) ∧
  (∀ (rs rt rd rd' ra rb : RegIdx) (sh sh' : Shamt) (s : State), ∃ t u v,
    exec (.mfhi ra rb rd' sh') s = .next t ∧
    exec (.mult rs rt rd sh) t = .next u ∧ u.readReg rd' = s.hi ∧
    exec (.div rs rt rd sh) t = .next v ∧ v.readReg rd' = s.hi)

/-! ### The step and the Run Loop (44_step_cycle.md) -/

/-- Sanity: a step runs the decoded instruction. When the word at `pc` decodes to an instruction, the step of a running
state is `exec` of it in that state and nothing around it. Every term of `Instr` is well formed by its type. -/
def Obligations.StepRunsDecodedInstruction : Prop :=
  ∀ (s : State) (w : Word) (i : Instr), s.run = .running → s.pc.toNat < s.imem.nextAddr →
    s.imem.lookup s.pc.toNat = some w → decode w = .instr i → step s = exec i s

/-- The pseudocode of the Run Loop (44_step_cycle.md sections 1 and 2): a step of a running state is the spec's step, its
`execute` and its `commit` on the eight fields of the fetched word. Its arithmetic arms rest on the spec's decisions D2, D3,
D4 and D15, MULT's untouched Hi on D14 (log 7), register 0 on D6 (log 6), and DIV's Hi on the open parameter (D5, log 1): the
statement holds for both values. -/
def Obligations.StepFollowsThePseudocode : Prop :=
  ∀ s : State, s.run = .running → step s = .next (Reference.step s)

/-- R114: the halt check comes first. A running state with `pc >= NextAddr`, aligned or not, halts with nothing else
changed, and no other running state halts. -/
def Obligations.HaltsExactlyPastTheEnd : Prop :=
  ∀ s : State, s.run = .running →
    (s.imem.nextAddr ≤ s.pc.toNat → step s = .next { s with run := .halted }) ∧
    (∀ t, step s = .next t → t.run = .halted → s.imem.nextAddr ≤ s.pc.toNat)

/-- R131: with the contiguous instruction memory of the hardware, a step of a running state raises AddressFault exactly
when `pc` is below NextAddr and no multiple of 4; `pc` keeps the address. -/
def Obligations.AddressFaultExactlyWhenMisaligned : Prop :=
  ∀ s : State, s.run = .running → s.imem.wf →
    (step s = .next { s with run := .faulted .addressFault } ↔
      s.pc.toNat < s.imem.nextAddr ∧ s.pc.toNat % 4 ≠ 0)

/-- The outcomes of a step (44_step_cycle.md section 2): from a running state it halts, or faults, or completes the
fetched instruction with the run still Running; in the first two nothing but `run` changes. -/
def Obligations.StepHasThreeOutcomes : Prop :=
  ∀ s : State, s.run = .running →
    step s = .next { s with run := .halted } ∨
    (∃ k, step s = .next { s with run := .faulted k }) ∨
    (∃ w i t, s.imem.lookup s.pc.toNat = some w ∧ decode w = .instr i ∧ exec i s = .next t ∧
      step s = .next t ∧ t.run = .running)

/-- Which fault a step reports, and that it reports one (44_step_cycle.md section 2, 60_exceptions.md section 2): the end
of a step from Running is told by the halt check, then the lookup, then the opcode, the funct and the divisor. -/
def Obligations.FaultKindIsDecidedInOrder : Prop :=
  ∀ s t : State, s.run = .running → step s = .next t →
    (t.run = .halted ↔ s.imem.nextAddr ≤ s.pc.toNat) ∧
    (t.run = .faulted .addressFault ↔ s.pc.toNat < s.imem.nextAddr ∧ s.imem.lookup s.pc.toNat = none) ∧
    (t.run = .faulted .unsupportedOpcode ↔ s.faultCause .unsupportedOpcode) ∧
    (t.run = .faulted .unsupportedFunct ↔ s.faultCause .unsupportedFunct) ∧
    (t.run = .faulted .divisionByZero ↔ s.faultCause .divisionByZero)

/-- R135: a step that raises a fault writes no register, no Hi, no Lo and no `pc`; it sets `run` to the fault and leaves
everything else. -/
def Obligations.FaultsArePrecise : Prop :=
  ∀ (s t : State) (k : RunFault), s.run = .running → step s = .next t → t.run = .faulted k →
    t = { s with run := .faulted k }

/-- After the end of a run (R21, R140; the form is the model's choice, log 3): a halted machine answers itself in any
number of steps, an aborted one stops with its fault, and nothing is Running again. -/
def Obligations.EndedRunsStayEnded : Prop :=
  (∀ (s : State) (n : Nat), s.run = .halted → core.run n s = .next s) ∧
  (∀ (s : State) (n : Nat) (k : RunFault), s.run = .faulted k → core.run (n + 1) s = .fault (.aborted k)) ∧
  (∀ (s t : State) (n : Nat), s.run ≠ .running → core.run n s = .next t → t = s)

/-- A jump to its own address never ends (43_jump.md sections 1 and 2, 44_step_cycle.md section 4), with no cap on the steps
(the spec's decision D13). With J the state is the same after any number of steps; with JAL the first step writes the JAL's
own address to `x[31]`, and from then on the state is the same after any number of steps. -/
def Obligations.JumpToItselfNeverEnds : Prop :=
  ∀ (s : State) (addr : JumpAddress) (n : Nat), s.run = .running → s.pc.toNat < s.imem.nextAddr →
    addr.toNat = s.pc.toNat →
    (s.imem.lookup s.pc.toNat = some (encode (.j addr)) → core.run n s = .next s) ∧
    (s.imem.lookup s.pc.toNat = some (encode (.jal addr)) →
      core.run (n + 1) s = .next { s with x := s.x.set 31 s.pc })

/-- What a jump target does at the next step (43_jump.md section 3): J and JAL never check it; then the run halts past the
end, AddressFault is raised at a misaligned address, and otherwise the slot `target / 4` is fetched. -/
def Obligations.JumpTargetIsCheckedByTheNextStep : Prop :=
  ∀ (s : State) (addr : JumpAddress) (i : Instr), s.run = .running → s.imem.wf → i = .j addr ∨ i = .jal addr →
    ∃ t, exec i s = .next t ∧ t.pc.toNat = addr.toNat ∧
      (if s.imem.nextAddr ≤ addr.toNat then step t = .next { t with run := .halted }
       else if addr.toNat % 4 ≠ 0 then step t = .next { t with run := .faulted .addressFault }
       else ∃ slot, s.imem.slots[addr.toNat / 4]? = some slot ∧ t.fetch = some slot.code ∧
         ∀ i', decode slot.code = .instr i' → step t = exec i' t)

/-- The path of a program does not depend on data (43_jump.md section 3, part (a) of R103): two machines that differ in the
registers, Hi and Lo only are, after the same number of steps, at the same `pc` in the same run state, unless one of them
has ended in DivisionByZero. -/
def Obligations.PathDoesNotDependOnData : Prop :=
  ∀ (n : Nat) (s s' t t' : State), s.samePath s' → core.run n s = .next t → core.run n s' = .next t' →
    t.samePath t' ∨ t.run = .faulted .divisionByZero ∨ t'.run = .faulted .divisionByZero

/-! ### The instruction memory, reset and launch (20_memory.md, 70_reset_and_hazards.md) -/

/-- R33: `append` fails with CapacityExceeded on a memory of 32 words and otherwise adds the word, unchanged, at NextAddr;
after `n` appends from empty there are `n` slots, slot `i` has location `4 * i` and the `i`-th word, and NextAddr is `4 * n`;
a 33rd append fails. -/
def Obligations.AppendFillsContiguously : Prop :=
  (∀ (m : Memory) (w : Word), m.size = 32 → m.append w = .fault .capacityExceeded) ∧
  (∀ (m : Memory) (w : Word), m.size ≠ 32 → ∃ m', m.append w = .next m' ∧
    m'.slots = m.slots ++ [{ location := m.nextAddr, code := w }] ∧ m'.size = m.size + 1 ∧
    m'.nextAddr = m.nextAddr + 4) ∧
  (∀ ws : List Word, ws.length ≤ 32 → ∃ m, Memory.initialize.appendAll ws = .next m ∧ m.size = ws.length ∧
    m.nextAddr = 4 * ws.length ∧
    ∀ k w, ws[k]? = some w → m.slots[k]? = some ({ location := 4 * k, code := w } : InstructionSlot)) ∧
  (∀ ws : List Word, 32 < ws.length → Memory.initialize.appendAll ws = .fault .capacityExceeded)

/-- The lookup in closed form (20_memory.md section 2, derived there): for a memory in its form the linear scan answers the
slot `a / 4` when `a` is a multiple of 4 and that slot is populated, and none otherwise. -/
def Obligations.LookupHasClosedForm : Prop :=
  ∀ (m : Memory) (a : Nat), m.wf →
    m.lookup a = if a % 4 = 0 ∧ a / 4 < m.size then (m.slots[a / 4]?).map InstructionSlot.code else none

/-- No step writes the instruction memory (20_memory.md section 9), from any state whatever. -/
def Obligations.StepsLeaveTheMemory : Prop :=
  ∀ s t : State, step s = .next t → t.imem = s.imem

/-- The rule a program can rely on (20_memory.md section 9): at any moment of any run from any launch, the fetch at
address `a` answers the `(a / 4)`-th word the loader appended, or none. -/
def Obligations.FetchReturnsTheLoadedWord : Prop :=
  ∀ (x : Vector Word 32) (hi lo : Word) (ws : List Word) (s t : State) (n a : Nat),
    launchWith x hi lo ws = .next s → core.run n s = .next t →
    t.imem.lookup a = if a % 4 = 0 then ws[a / 4]? else none

/-- What reset leaves (10_state.md section 9): `pc` 0, Running, the instruction memory empty (no slot, size and NextAddr 0,
every lookup misses), and every register, Hi and Lo zero; the zeros of the registers, Hi and Lo are the spec's decision D8
(log 2). The first step then halts, the program being empty. -/
def Obligations.ResetValues : Prop :=
  State.reset.pc = 0 ∧ State.reset.run = .running ∧ State.reset.imem = Memory.initialize ∧
  Memory.initialize.size = 0 ∧ Memory.initialize.nextAddr = 0 ∧ (∀ a, State.reset.imem.lookup a = none) ∧
  (∀ r, State.reset.readReg r = 0) ∧ State.reset.hi = 0 ∧ State.reset.lo = 0 ∧
  step State.reset = .next { State.reset with run := .halted }

/-- A launch (70_reset_and_hazards.md sections 2 and 3): a program of at most 32 words, whatever their bits, gives a
running state at `pc` 0 with the start values asked for (INIT_STATE, the spec's decision D8) and the program in order from
address 0; a longer program is refused with CapacityExceeded. -/
def Obligations.LaunchLoadsTheProgram : Prop :=
  ∀ (x : Vector Word 32) (hi lo : Word) (ws : List Word),
    (Program.wellFormed ws = true → ∃ s, launchWith x hi lo ws = .next s ∧ s.x = x ∧ s.hi = hi ∧ s.lo = lo ∧
      s.pc = 0 ∧ s.run = .running ∧ s.imem.slots.map InstructionSlot.code = ws ∧ s.imem.wf) ∧
    (Program.wellFormed ws = false → launchWith x hi lo ws = .fault .capacityExceeded)

/-- The invariant is kept by every step, from every state that has it: the memory's form (R22), bits 31 to 26 of `pc` zero
(R17, derived there), a halted run past the end (R119), an aborted run at the cause of its fault (R131 to R134). -/
def Obligations.StepKeepsInvariant : Prop := ∀ s t : State, s.Inv → step s = .next t → t.Inv

/-- The state after reset has the invariant. -/
def Obligations.ResetHasInvariant : Prop := State.reset.Inv

/-- Every launch has the invariant, and so has every state of a run from it. -/
def Obligations.RunsFromLaunchHaveInvariant : Prop :=
  ∀ (x : Vector Word 32) (hi lo : Word) (ws : List Word) (s t : State) (n : Nat),
    launchWith x hi lo ws = .next s → core.run n s = .next t → t.Inv

/-- A run that ended without a fault (R119, 44_step_cycle.md section 4): whatever state with the invariant it started
from, a halted end has `pc >= NextAddr`, and an aborted end still shows the cause of its fault. -/
def Obligations.EndOfRunIsExplained : Prop :=
  ∀ (s t : State) (n : Nat), s.Inv → core.run n s = .next t →
    (t.run = .halted → t.imem.nextAddr ≤ t.pc.toNat) ∧
    (∀ k, t.run = .faulted k → t.faultCause k) ∧ t.imem = s.imem
end

