-- ==== Sys2Proof/Laws/Decode.lean ====
section
/-! SUPPORT. The decoder, the dispatch and the three word formats: each field as a number, the fields of an assembled word, the word assembled from its own fields, and everything the dispatch can select. -/

namespace Sys2Proof

section FieldNumbers

variable (w : Word)

theorem decodeFields_opcode : (decodeFields w).opcode.toNat = w.toNat / 67108864 % 64 := by
  simp [decodeFields, bitField, BitVec.extractLsb'_toNat, Nat.shiftRight_eq_div_pow]
theorem decodeFields_rs : (decodeFields w).rs.toNat = w.toNat / 2097152 % 32 := by
  simp [decodeFields, bitField, BitVec.extractLsb'_toNat, Nat.shiftRight_eq_div_pow]
theorem decodeFields_rt : (decodeFields w).rt.toNat = w.toNat / 65536 % 32 := by
  simp [decodeFields, bitField, BitVec.extractLsb'_toNat, Nat.shiftRight_eq_div_pow]
theorem decodeFields_rd : (decodeFields w).rd.toNat = w.toNat / 2048 % 32 := by
  simp [decodeFields, bitField, BitVec.extractLsb'_toNat, Nat.shiftRight_eq_div_pow]
theorem decodeFields_shamt : (decodeFields w).shamt.toNat = w.toNat / 64 % 32 := by
  simp [decodeFields, bitField, BitVec.extractLsb'_toNat, Nat.shiftRight_eq_div_pow]
theorem decodeFields_funct : (decodeFields w).funct.toNat = w.toNat % 64 := by
  simp [decodeFields, bitField, BitVec.extractLsb'_toNat]
theorem decodeFields_immediate : (decodeFields w).immediate.toNat = w.toNat % 65536 := by
  simp [decodeFields, bitField, BitVec.extractLsb'_toNat]
theorem decodeFields_address : (decodeFields w).address.toNat = w.toNat % 67108864 := by
  simp [decodeFields, bitField, BitVec.extractLsb'_toNat]

end FieldNumbers

section Formats

variable (opcode funct : BitVec 6) (rs rt rd : RegIdx) (shamt : Shamt) (imm : Immediate) (addr : JumpAddress)

/-- The fields an R-type word is assembled from are the fields it decodes to. -/
theorem decodeFields_encodeR :
    (decodeFields (encodeR rs rt rd shamt funct)).opcode = 0 ∧
    (decodeFields (encodeR rs rt rd shamt funct)).rs = rs ∧
    (decodeFields (encodeR rs rt rd shamt funct)).rt = rt ∧
    (decodeFields (encodeR rs rt rd shamt funct)).rd = rd ∧
    (decodeFields (encodeR rs rt rd shamt funct)).shamt = shamt ∧
    (decodeFields (encodeR rs rt rd shamt funct)).funct = funct := by
  simp only [decodeFields, bitField, encodeR]
  refine ⟨?_, ?_, ?_, ?_, ?_, ?_⟩ <;> ext k hk <;>
    simp only [BitVec.getElem_extractLsb', BitVec.getLsbD_append] <;> interval_cases k <;> simp

/-- The fields an I-type word is assembled from are the fields it decodes to. -/
theorem decodeFields_encodeI :
    (decodeFields (encodeI opcode rs rt imm)).opcode = opcode ∧
    (decodeFields (encodeI opcode rs rt imm)).rs = rs ∧
    (decodeFields (encodeI opcode rs rt imm)).rt = rt ∧
    (decodeFields (encodeI opcode rs rt imm)).immediate = imm := by
  simp only [decodeFields, bitField, encodeI]
  refine ⟨?_, ?_, ?_, ?_⟩ <;> ext k hk <;>
    simp only [BitVec.getElem_extractLsb', BitVec.getLsbD_append] <;> interval_cases k <;> simp

/-- The fields a J-type word is assembled from are the fields it decodes to. -/
theorem decodeFields_encodeJ :
    (decodeFields (encodeJ opcode addr)).opcode = opcode ∧
    (decodeFields (encodeJ opcode addr)).address = addr := by
  simp only [decodeFields, bitField, encodeJ]
  refine ⟨?_, ?_⟩ <;> ext k hk <;>
    simp only [BitVec.getElem_extractLsb', BitVec.getLsbD_append] <;> interval_cases k <;> simp

end Formats

section Words

variable (w : Word)

/-- A word with opcode 0 is the R-type word of its own fields. -/
theorem encodeR_decodeFields (h : (decodeFields w).opcode = 0) :
    encodeR (decodeFields w).rs (decodeFields w).rt (decodeFields w).rd (decodeFields w).shamt
      (decodeFields w).funct = w := by
  unfold encodeR
  rw [← h]
  apply BitVec.eq_of_getLsbD_eq
  intro k hk
  simp only [decodeFields, bitField, BitVec.getLsbD_append, BitVec.getLsbD_extractLsb']
  interval_cases k <;> simp

/-- Any word is the I-type word of its own fields. -/
theorem encodeI_decodeFields :
    encodeI (decodeFields w).opcode (decodeFields w).rs (decodeFields w).rt (decodeFields w).immediate = w := by
  unfold encodeI
  apply BitVec.eq_of_getLsbD_eq
  intro k hk
  simp only [decodeFields, bitField, BitVec.getLsbD_append, BitVec.getLsbD_extractLsb']
  interval_cases k <;> simp

/-- Any word is the J-type word of its own fields. -/
theorem encodeJ_decodeFields : encodeJ (decodeFields w).opcode (decodeFields w).address = w := by
  unfold encodeJ
  apply BitVec.eq_of_getLsbD_eq
  intro k hk
  simp only [decodeFields, bitField, BitVec.getLsbD_append, BitVec.getLsbD_extractLsb']
  interval_cases k <;> simp

end Words

/-- The fixed fields a record must have for each instruction, and the operands the instruction then has. -/
inductive SelectCase (d : DecodedInstruction) : Instr → Prop where
  | add (ho : d.opcode = 0) (hf : d.funct = 33) : SelectCase d (.add d.rs d.rt d.rd d.shamt)
  | sub (ho : d.opcode = 0) (hf : d.funct = 35) : SelectCase d (.sub d.rs d.rt d.rd d.shamt)
  | mult (ho : d.opcode = 0) (hf : d.funct = 25) : SelectCase d (.mult d.rs d.rt d.rd d.shamt)
  | div (ho : d.opcode = 0) (hf : d.funct = 27) : SelectCase d (.div d.rs d.rt d.rd d.shamt)
  | mfhi (ho : d.opcode = 0) (hf : d.funct = 16) : SelectCase d (.mfhi d.rs d.rt d.rd d.shamt)
  | mflo (ho : d.opcode = 0) (hf : d.funct = 18) : SelectCase d (.mflo d.rs d.rt d.rd d.shamt)
  | addi (ho : d.opcode = 8) : SelectCase d (.addi d.rs d.rt d.immediate)
  | andi (ho : d.opcode = 12) : SelectCase d (.andi d.rs d.rt d.immediate)
  | j (ho : d.opcode = 2) : SelectCase d (.j d.address)
  | jal (ho : d.opcode = 3) : SelectCase d (.jal d.address)

/-- Everything the dispatch can select as an instruction. -/
theorem select_cases {d : DecodedInstruction} {i : Instr} (h : select d = .instr i) : SelectCase d i := by
  unfold select selectRType at h
  by_cases h0 : d.opcode = 0
  · rw [if_pos h0] at h
    by_cases h1 : d.funct = 33
    · rw [if_pos h1] at h; cases h; exact .add h0 h1
    rw [if_neg h1] at h
    by_cases h2 : d.funct = 35
    · rw [if_pos h2] at h; cases h; exact .sub h0 h2
    rw [if_neg h2] at h
    by_cases h3 : d.funct = 25
    · rw [if_pos h3] at h; cases h; exact .mult h0 h3
    rw [if_neg h3] at h
    by_cases h4 : d.funct = 27
    · rw [if_pos h4] at h; cases h; exact .div h0 h4
    rw [if_neg h4] at h
    by_cases h5 : d.funct = 16
    · rw [if_pos h5] at h; cases h; exact .mfhi h0 h5
    rw [if_neg h5] at h
    by_cases h6 : d.funct = 18
    · rw [if_pos h6] at h; cases h; exact .mflo h0 h6
    rw [if_neg h6] at h; cases h
  · rw [if_neg h0] at h
    by_cases h1 : d.opcode = 2
    · rw [if_pos h1] at h; cases h; exact .j h1
    rw [if_neg h1] at h
    by_cases h2 : d.opcode = 3
    · rw [if_pos h2] at h; cases h; exact .jal h2
    rw [if_neg h2] at h
    by_cases h3 : d.opcode = 8
    · rw [if_pos h3] at h; cases h; exact .addi h3
    rw [if_neg h3] at h
    by_cases h4 : d.opcode = 12
    · rw [if_pos h4] at h; cases h; exact .andi h4
    rw [if_neg h4] at h; cases h

/-- The dispatch selects exactly these instructions. -/
theorem select_eq_instr {d : DecodedInstruction} {i : Instr} : select d = .instr i ↔ SelectCase d i := by
  refine ⟨select_cases, fun h => ?_⟩
  cases h with
  | add ho hf => rw [select, if_pos ho, selectRType, hf]; rfl
  | sub ho hf => rw [select, if_pos ho, selectRType, hf]; rfl
  | mult ho hf => rw [select, if_pos ho, selectRType, hf]; rfl
  | div ho hf => rw [select, if_pos ho, selectRType, hf]; rfl
  | mfhi ho hf => rw [select, if_pos ho, selectRType, hf]; rfl
  | mflo ho hf => rw [select, if_pos ho, selectRType, hf]; rfl
  | addi ho => rw [select, ho]; rfl
  | andi ho => rw [select, ho]; rfl
  | j ho => rw [select, ho]; rfl
  | jal ho => rw [select, ho]; rfl

/-- When the dispatch finds no instruction for the opcode. -/
theorem select_unsupportedOpcode {d : DecodedInstruction} :
    select d = .unsupportedOpcode ↔
      d.opcode ≠ 0 ∧ d.opcode ≠ 2 ∧ d.opcode ≠ 3 ∧ d.opcode ≠ 8 ∧ d.opcode ≠ 12 := by
  unfold select selectRType
  constructor
  · intro h
    refine ⟨?_, ?_, ?_, ?_, ?_⟩ <;> intro ho <;> simp [ho] at h
    repeat' split at h
    all_goals cases h
  · rintro ⟨h0, h1, h2, h3, h4⟩
    rw [if_neg h0, if_neg h1, if_neg h2, if_neg h3, if_neg h4]

/-- When the dispatch finds no instruction for the funct of opcode 0. -/
theorem select_unsupportedFunct {d : DecodedInstruction} :
    select d = .unsupportedFunct ↔
      d.opcode = 0 ∧ d.funct ≠ 33 ∧ d.funct ≠ 35 ∧ d.funct ≠ 25 ∧ d.funct ≠ 27 ∧ d.funct ≠ 16 ∧ d.funct ≠ 18 := by
  unfold select
  constructor
  · intro h
    by_cases h0 : d.opcode = 0
    · simp only [h0, if_true, selectRType] at h
      refine ⟨h0, ?_, ?_, ?_, ?_, ?_, ?_⟩ <;> intro hf <;> simp [hf] at h
    · rw [if_neg h0] at h
      repeat' split at h
      all_goals cases h
  · rintro ⟨h0, h1, h2, h3, h4, h5, h6⟩
    rw [if_pos h0, selectRType, if_neg h1, if_neg h2, if_neg h3, if_neg h4, if_neg h5, if_neg h6]

end Sys2Proof
end

