-- ==== Sys2Proof/Laws/Memory.lean ====
section
/-! SUPPORT. The instruction memory: every operation keeps its canonical form (R22), and what `append`, the loader and the lookup answer (R32, R33, R34). -/

namespace Sys2Proof.Machine

open Sys2Proof

@[simp] theorem Memory.size_initialize : Memory.initialize.size = 0 := rfl
@[simp] theorem Memory.nextAddr_initialize : Memory.initialize.nextAddr = 0 := rfl
@[simp] theorem Memory.lookup_initialize (a : Nat) : Memory.initialize.lookup a = none := rfl

theorem Memory.initialize_wf : Memory.initialize.wf := by decide

theorem State.reset_imem_wf : State.reset.imem.wf := by decide

theorem Memory.single_wf (w : Word) : (Memory.single w).wf := ⟨rfl, rfl, by simp [Memory.size, Memory.single, Config.imemSlots]⟩

@[simp] theorem Memory.lookup_single (w : Word) : (Memory.single w).lookup 0 = some w := rfl

/-- Everything `append` can answer: CapacityExceeded with the memory full, else the memory with one more slot. -/
theorem Memory.append_cases {m m' : Memory} {w : Word} (h : m.append w = .next m') :
    m.size ≠ Config.imemSlots ∧ m'.slots = m.slots ++ [{ location := m.nextAddr, code := w }] ∧
      m'.nextAddr = m.nextAddr + Config.imemStride := by
  unfold Memory.append at h
  split at h
  · cases h
  · cases h; exact ⟨‹_›, rfl, rfl⟩

theorem Memory.append_wf {m m' : Memory} {w : Word} (hm : m.wf) (h : m.append w = .next m') : m'.wf := by
  obtain ⟨hfull, hslots, hnext⟩ := Memory.append_cases h
  obtain ⟨hloc, haddr, hcap⟩ := hm
  have hsize : m'.size = m.size + 1 := by simp [Memory.size, hslots]
  refine ⟨?_, ?_, ?_⟩
  · simp [hslots, hsize, List.range_succ, hloc, haddr]
  · rw [hnext, hsize, haddr]; simp only [Config.imemStride]; omega
  · rw [hsize]; omega

theorem Memory.appendAll_wf {ws : List Word} : ∀ {m m' : Memory}, m.wf → m.appendAll ws = .next m' → m'.wf := by
  induction ws with
  | nil => intro m m' hm h; cases h; exact hm
  | cons w ws ih =>
    intro m m' hm h
    simp only [Memory.appendAll] at h
    split at h
    · exact ih (Memory.append_wf hm ‹_›) h
    · cases h
    · cases h

/-- A slot replaced by one at the same location keeps the form. -/
theorem Memory.replaceAt_wf {m : Memory} (a : Nat) (w : Word) (hm : m.wf) : (m.replaceAt a w).wf := by
  obtain ⟨hloc, haddr, hcap⟩ := hm
  have hsize : (m.replaceAt a w).size = m.size := by simp [Memory.replaceAt, Memory.size]
  refine ⟨?_, by rw [hsize]; exact haddr, by rw [hsize]; exact hcap⟩
  rw [hsize, ← hloc]
  simp only [Memory.replaceAt, List.map_map]
  refine List.map_congr_left fun slot _ => ?_
  simp only [Function.comp_apply]
  split <;> rfl

/-- After a replacement at a resident address the lookup there answers the new word. -/
theorem Memory.lookup_replaceAt {m : Memory} {a : Nat} (w : Word) (h : (m.lookup a).isSome = true) :
    (m.replaceAt a w).lookup a = some w := by
  obtain ⟨slots, next⟩ := m
  simp only [Memory.lookup, Memory.replaceAt] at h ⊢
  induction slots with
  | nil => simp at h
  | cons slot rest ih =>
    by_cases hs : slot.location = a
    · simp [hs]
    · simp [hs] at h ⊢
      simpa [hs] using ih (by simpa using h)

end Sys2Proof.Machine
end

