-- ==== Sys2Proof/Laws/PerInstr.lean ====
section
/-! SUPPORT. One statement about every instruction as syntax, made per constructor: its word carries the fixed bits of its row of the opcode table (R58). -/

namespace Sys2Proof.Laws

open Sys2Proof

/-- The word of `i` matches its own row of R58. -/
def EncodingRow.Statement (i : Instr) : Prop := encode i &&& i.row.mask = i.row.matchBits

section Formats

variable (rs rt rd : RegIdx) (shamt : Shamt) (imm : Immediate) (addr : JumpAddress)

/-- The opcode and funct bits of an R-type word. -/
theorem EncodingRow.rtype (funct : BitVec 6) :
    encodeR rs rt rd shamt funct &&& 0xFC00003F = (0 : BitVec 6) ++ (0 : BitVec 20) ++ funct := by
  unfold encodeR
  ext k hk
  simp only [BitVec.getElem_and, BitVec.getElem_append]
  interval_cases k <;> simp

/-- The opcode bits of an I-type word. -/
theorem EncodingRow.itype (opcode : BitVec 6) :
    encodeI opcode rs rt imm &&& 0xFC000000 = opcode ++ (0 : BitVec 26) := by
  unfold encodeI
  ext k hk
  simp only [BitVec.getElem_and, BitVec.getElem_append]
  interval_cases k <;> simp

/-- The opcode bits of a J-type word. -/
theorem EncodingRow.jtype (opcode : BitVec 6) :
    encodeJ opcode addr &&& 0xFC000000 = opcode ++ (0 : BitVec 26) := by
  unfold encodeJ
  ext k hk
  simp only [BitVec.getElem_and, BitVec.getElem_append]
  interval_cases k <;> simp

theorem EncodingRow.add : EncodingRow.Statement (.add rs rt rd shamt) := EncodingRow.rtype rs rt rd shamt 33
theorem EncodingRow.sub : EncodingRow.Statement (.sub rs rt rd shamt) := EncodingRow.rtype rs rt rd shamt 35
theorem EncodingRow.mult : EncodingRow.Statement (.mult rs rt rd shamt) := EncodingRow.rtype rs rt rd shamt 25
theorem EncodingRow.div : EncodingRow.Statement (.div rs rt rd shamt) := EncodingRow.rtype rs rt rd shamt 27
theorem EncodingRow.mfhi : EncodingRow.Statement (.mfhi rs rt rd shamt) := EncodingRow.rtype rs rt rd shamt 16
theorem EncodingRow.mflo : EncodingRow.Statement (.mflo rs rt rd shamt) := EncodingRow.rtype rs rt rd shamt 18
theorem EncodingRow.addi : EncodingRow.Statement (.addi rs rt imm) := EncodingRow.itype rs rt imm 8
theorem EncodingRow.andi : EncodingRow.Statement (.andi rs rt imm) := EncodingRow.itype rs rt imm 12
theorem EncodingRow.j : EncodingRow.Statement (.j addr) := EncodingRow.jtype addr 2
theorem EncodingRow.jal : EncodingRow.Statement (.jal addr) := EncodingRow.jtype addr 3

end Formats

end Sys2Proof.Laws
end

