-- ==== Sys2Proof/Laws/State.lean ====
section
/-! SUPPORT. The small lemmas of the named operations over State: one per field per update, so that no proof unfolds a record update, and what reading a register gives after each of them. -/

namespace Sys2Proof.Machine

open Sys2Proof

section Fields

variable (s : State) (i : RegIdx) (v q r : Word) (k : RunFault)

@[simp] theorem State.writeReg_hi : (s.writeReg i v).hi = s.hi := rfl
@[simp] theorem State.writeReg_lo : (s.writeReg i v).lo = s.lo := rfl
@[simp] theorem State.writeReg_pc : (s.writeReg i v).pc = s.pc := rfl
@[simp] theorem State.writeReg_run : (s.writeReg i v).run = s.run := rfl
@[simp] theorem State.writeReg_imem : (s.writeReg i v).imem = s.imem := rfl

@[simp] theorem State.setHi_x : (s.setHi v).x = s.x := rfl
@[simp] theorem State.setHi_hi : (s.setHi v).hi = v := rfl
@[simp] theorem State.setHi_lo : (s.setHi v).lo = s.lo := rfl
@[simp] theorem State.setHi_pc : (s.setHi v).pc = s.pc := rfl
@[simp] theorem State.setHi_run : (s.setHi v).run = s.run := rfl
@[simp] theorem State.setHi_imem : (s.setHi v).imem = s.imem := rfl

@[simp] theorem State.setLo_x : (s.setLo v).x = s.x := rfl
@[simp] theorem State.setLo_hi : (s.setLo v).hi = s.hi := rfl
@[simp] theorem State.setLo_lo : (s.setLo v).lo = v := rfl
@[simp] theorem State.setLo_pc : (s.setLo v).pc = s.pc := rfl
@[simp] theorem State.setLo_run : (s.setLo v).run = s.run := rfl
@[simp] theorem State.setLo_imem : (s.setLo v).imem = s.imem := rfl

@[simp] theorem State.setPc_x : (s.setPc v).x = s.x := rfl
@[simp] theorem State.setPc_hi : (s.setPc v).hi = s.hi := rfl
@[simp] theorem State.setPc_lo : (s.setPc v).lo = s.lo := rfl
@[simp] theorem State.setPc_pc : (s.setPc v).pc = v := rfl
@[simp] theorem State.setPc_run : (s.setPc v).run = s.run := rfl
@[simp] theorem State.setPc_imem : (s.setPc v).imem = s.imem := rfl

@[simp] theorem State.advance_x : s.advance.x = s.x := rfl
@[simp] theorem State.advance_hi : s.advance.hi = s.hi := rfl
@[simp] theorem State.advance_lo : s.advance.lo = s.lo := rfl
@[simp] theorem State.advance_pc : s.advance.pc = s.pc + 4 := rfl
@[simp] theorem State.advance_run : s.advance.run = s.run := rfl
@[simp] theorem State.advance_imem : s.advance.imem = s.imem := rfl

@[simp] theorem State.raise_x : (s.raise k).x = s.x := rfl
@[simp] theorem State.raise_hi : (s.raise k).hi = s.hi := rfl
@[simp] theorem State.raise_lo : (s.raise k).lo = s.lo := rfl
@[simp] theorem State.raise_pc : (s.raise k).pc = s.pc := rfl
@[simp] theorem State.raise_run : (s.raise k).run = .faulted k := rfl
@[simp] theorem State.raise_imem : (s.raise k).imem = s.imem := rfl

@[simp] theorem State.halt_x : s.halt.x = s.x := rfl
@[simp] theorem State.halt_hi : s.halt.hi = s.hi := rfl
@[simp] theorem State.halt_lo : s.halt.lo = s.lo := rfl
@[simp] theorem State.halt_pc : s.halt.pc = s.pc := rfl
@[simp] theorem State.halt_run : s.halt.run = .halted := rfl
@[simp] theorem State.halt_imem : s.halt.imem = s.imem := rfl

@[simp] theorem State.commitReg_hi : (s.commitReg i v).hi = s.hi := rfl
@[simp] theorem State.commitReg_lo : (s.commitReg i v).lo = s.lo := rfl
@[simp] theorem State.commitReg_pc : (s.commitReg i v).pc = s.pc + 4 := rfl
@[simp] theorem State.commitReg_run : (s.commitReg i v).run = s.run := rfl
@[simp] theorem State.commitReg_imem : (s.commitReg i v).imem = s.imem := rfl

@[simp] theorem State.commitLo_x : (s.commitLo v).x = s.x := rfl
@[simp] theorem State.commitLo_hi : (s.commitLo v).hi = s.hi := rfl
@[simp] theorem State.commitLo_lo : (s.commitLo v).lo = v := rfl
@[simp] theorem State.commitLo_pc : (s.commitLo v).pc = s.pc + 4 := rfl
@[simp] theorem State.commitLo_run : (s.commitLo v).run = s.run := rfl
@[simp] theorem State.commitLo_imem : (s.commitLo v).imem = s.imem := rfl

/-- What DIV's commit writes, for both values of the parameter. -/
theorem State.commitDiv_eq (b : Bool) :
    s.commitDiv b q r = { s with lo := q, hi := if b then r else s.hi, pc := s.pc + 4 } := rfl

@[simp] theorem State.commitDiv_x (b : Bool) : (s.commitDiv b q r).x = s.x := rfl
@[simp] theorem State.commitDiv_hi (b : Bool) : (s.commitDiv b q r).hi = if b then r else s.hi := rfl
@[simp] theorem State.commitDiv_lo (b : Bool) : (s.commitDiv b q r).lo = q := rfl
@[simp] theorem State.commitDiv_pc (b : Bool) : (s.commitDiv b q r).pc = s.pc + 4 := rfl
@[simp] theorem State.commitDiv_run (b : Bool) : (s.commitDiv b q r).run = s.run := rfl
@[simp] theorem State.commitDiv_imem (b : Bool) : (s.commitDiv b q r).imem = s.imem := rfl

end Fields

section Registers

variable (s : State) (i j : RegIdx) (v q r : Word) (k : RunFault)

/-- A register read after a register write; register 0 is no exception (R11). -/
@[simp] theorem State.readReg_writeReg : (s.writeReg i v).readReg j = if i = j then v else s.readReg j := by
  have h : (i.toNat = j.toNat) ↔ (i = j) := BitVec.toNat_inj
  simp only [State.readReg, State.writeReg, Vector.getElem_set, h]

/-- Two states with the same register file read the same. -/
theorem State.readReg_of_x {s t : State} (h : t.x = s.x) (j : RegIdx) : t.readReg j = s.readReg j := by
  simp only [State.readReg, h]

@[simp] theorem State.readReg_setHi : (s.setHi v).readReg j = s.readReg j := rfl
@[simp] theorem State.readReg_setLo : (s.setLo v).readReg j = s.readReg j := rfl
@[simp] theorem State.readReg_setPc : (s.setPc v).readReg j = s.readReg j := rfl
@[simp] theorem State.readReg_advance : s.advance.readReg j = s.readReg j := rfl
@[simp] theorem State.readReg_raise : (s.raise k).readReg j = s.readReg j := rfl
@[simp] theorem State.readReg_halt : s.halt.readReg j = s.readReg j := rfl
@[simp] theorem State.readReg_commitLo : (s.commitLo v).readReg j = s.readReg j := rfl
@[simp] theorem State.readReg_commitReg :
    (s.commitReg i v).readReg j = if i = j then v else s.readReg j := by simp [State.commitReg]
@[simp] theorem State.readReg_commitDiv (b : Bool) : (s.commitDiv b q r).readReg j = s.readReg j := rfl

end Registers

section Reset

@[simp] theorem State.reset_pc : State.reset.pc = 0 := rfl
@[simp] theorem State.reset_hi : State.reset.hi = 0 := rfl
@[simp] theorem State.reset_lo : State.reset.lo = 0 := rfl
@[simp] theorem State.reset_run : State.reset.run = .running := rfl
@[simp] theorem State.reset_imem : State.reset.imem = Memory.initialize := rfl

end Reset

end Sys2Proof.Machine
end

