-- ==== Sys2Proof/Laws/Step.lean ====
section
/-! SUPPORT. What each meaning and a step can answer, said once. -/

namespace Sys2Proof.Machine

open Sys2Proof

section Meanings

variable (rs rt rd : RegIdx) (shamt : Shamt) (imm : Immediate) (addr : JumpAddress) (s : State)

theorem exec_add : exec (.add rs rt rd shamt) s = .next (s.commitReg rd (s.readReg rs + s.readReg rt)) := rfl
theorem exec_sub : exec (.sub rs rt rd shamt) s = .next (s.commitReg rd (s.readReg rs - s.readReg rt)) := rfl
theorem exec_mult : exec (.mult rs rt rd shamt) s = .next (s.commitLo (s.readReg rs * s.readReg rt)) := rfl
theorem exec_mfhi : exec (.mfhi rs rt rd shamt) s = .next (s.commitReg rd s.hi) := rfl
theorem exec_mflo : exec (.mflo rs rt rd shamt) s = .next (s.commitReg rd s.lo) := rfl
theorem exec_addi : exec (.addi rs rt imm) s = .next (s.commitReg rt (s.readReg rs + imm.signExtend 32)) := rfl
theorem exec_andi : exec (.andi rs rt imm) s = .next (s.commitReg rt (s.readReg rs &&& imm.signExtend 32)) := rfl
theorem exec_j : exec (.j addr) s = .next (s.setPc (addr.setWidth 32)) := rfl
theorem exec_jal : exec (.jal addr) s = .next ((s.writeReg 31 s.pc).setPc (addr.setWidth 32)) := rfl

/-- DIV in one equation: the fault, or the commit of quotient and remainder. -/
theorem exec_div :
    exec (.div rs rt rd shamt) s =
      if s.readReg rt = 0 then .next (s.raise .divisionByZero)
      else .next (s.commitDiv Config.divWritesHi (quotientOf (s.readReg rs) (s.readReg rt))
        (remainderOf (s.readReg rs) (s.readReg rt))) := rfl

end Meanings

/-- Every instruction answers a next state, whatever the state is. -/
theorem exec_answers (i : Instr) (s : State) : ∃ t, exec i s = .next t := by
  cases i with
  | div rs rt rd shamt => rw [exec_div]; split <;> exact ⟨_, rfl⟩
  | _ => exact ⟨_, rfl⟩

/-- A step of a running state as one equation: the checks in their order (R116), then the instruction. -/
theorem step_running {s : State} (hrun : s.run = .running) :
    step s =
      if s.pastEnd then .next s.halt
      else match s.fetch with
        | none => .next (s.raise .addressFault)
        | some w =>
          match decode w with
          | .instr i => exec i s
          | .unsupportedOpcode => .next (s.raise .unsupportedOpcode)
          | .unsupportedFunct => .next (s.raise .unsupportedFunct) := by
  simp only [step, beforeExec, hrun, fetchStage]
  by_cases hend : s.pastEnd
  · simp only [hend, if_true]
  · simp only [hend, if_false]
    cases s.fetch with
    | none => rfl
    | some w =>
      simp only [decodeStage]
      cases decode w <;> rfl

/-- A step outside Running: a halted machine answers itself, an aborted run stops with its fault. -/
theorem step_ended {s : State} (hrun : s.run ≠ .running) :
    step s = .next s ∧ s.run = .halted ∨ ∃ k, s.run = .faulted k ∧ step s = .fault (.aborted k) := by
  cases h : s.run with
  | running => exact absurd h hrun
  | halted => exact .inl ⟨by simp only [step, beforeExec, h], rfl⟩
  | faulted k => exact .inr ⟨k, rfl, by simp only [step, beforeExec, h]⟩

/-- What a step from Running can do when it answers a next state: halt, raise one of the three faults that precede
execution, or answer what the fetched instruction answers. -/
inductive StepCase (s t : State) : Prop where
  | halts (hend : s.pastEnd) (ht : t = s.halt)
  | missing (hend : ¬ s.pastEnd) (hw : s.fetch = none) (ht : t = s.raise .addressFault)
  | badOpcode (w : Word) (hend : ¬ s.pastEnd) (hw : s.fetch = some w) (hd : decode w = .unsupportedOpcode)
      (ht : t = s.raise .unsupportedOpcode)
  | badFunct (w : Word) (hend : ¬ s.pastEnd) (hw : s.fetch = some w) (hd : decode w = .unsupportedFunct)
      (ht : t = s.raise .unsupportedFunct)
  | executes (w : Word) (i : Instr) (hend : ¬ s.pastEnd) (hw : s.fetch = some w) (hd : decode w = .instr i)
      (ht : exec i s = .next t)

theorem step_cases {s t : State} (hrun : s.run = .running) (h : step s = .next t) : StepCase s t := by
  rw [step_running hrun] at h
  by_cases hend : s.pastEnd
  · rw [if_pos hend] at h; cases h; exact .halts hend rfl
  · rw [if_neg hend] at h
    cases hw : s.fetch with
    | none => simp only [hw] at h; cases h; exact .missing hend hw rfl
    | some w =>
      simp only [hw] at h
      cases hd : decode w with
      | instr i => simp only [hd] at h; exact .executes w i hend hw hd h
      | unsupportedOpcode => simp only [hd] at h; cases h; exact .badOpcode w hend hw hd rfl
      | unsupportedFunct => simp only [hd] at h; cases h; exact .badFunct w hend hw hd rfl

/-- A step from Running answers a next state, whatever the state is. -/
theorem step_answers {s : State} (hrun : s.run = .running) : ∃ t, step s = .next t := by
  rw [step_running hrun]
  split
  · exact ⟨_, rfl⟩
  · split
    · exact ⟨_, rfl⟩
    · split
      · exact exec_answers _ s
      · exact ⟨_, rfl⟩
      · exact ⟨_, rfl⟩

section FetchWord

/-- After `withFetchWord` the machine runs, is not past its end, and its fetch reads exactly the given word. -/
theorem State.withFetchWord_fetch (s : State) (nbits w : Nat) :
    (s.withFetchWord nbits w).run = .running ∧ ¬ (s.withFetchWord nbits w).pastEnd ∧
      (s.withFetchWord nbits w).fetch = some (tableWord nbits w) := by
  unfold State.withFetchWord State.placeWord
  split
  · next h => exact ⟨rfl, h.1, Memory.lookup_replaceAt _ h.2⟩
  · exact ⟨rfl, by simp [Memory.single, Config.imemStride], rfl⟩

/-- The next step from `withFetchWord` is the instruction the decoder reads from the same bits. -/
theorem step_withFetchWord {nbits w : Nat} {i : Instr} (s : State) (h : decodeTableWord nbits w = some i) :
    step (s.withFetchWord nbits w) = exec i (s.withFetchWord nbits w) := by
  obtain ⟨hrun, hend, hfetch⟩ := s.withFetchWord_fetch nbits w
  rw [step_running hrun, if_neg hend, hfetch]
  unfold decodeTableWord at h
  cases hd : decode (tableWord nbits w) with
  | instr j => rw [hd] at h; cases h; simp only [hd]
  | unsupportedOpcode => rw [hd] at h; cases h
  | unsupportedFunct => rw [hd] at h; cases h

/-- Placing a word keeps the form of the instruction memory. -/
theorem State.withFetchWord_wf {s : State} (nbits w : Nat) (h : s.imem.wf) : (s.withFetchWord nbits w).imem.wf := by
  unfold State.withFetchWord State.placeWord
  split
  · exact Memory.replaceAt_wf _ _ h
  · exact Memory.single_wf _

end FetchWord

end Sys2Proof.Machine
end

