-- ==== Sys2Proof/Tests/Slice0.lean ====
section
/-! SUPPORT. The model's own tests, one step each, with expected results taken from spec/95_test_vectors.md and the rules' corner cases, and for every obligation with hypotheses a theorem that shows a state and operands that meet them. -/

namespace Sys2Proof.Tests

open Sys2Proof Sys2Proof.Machine

/-- The next state of an outcome, if it is one. -/
def nextState : Host.Outcome State Fault Refusal → Option State
  | .next s => some s
  | .fault _ => none
  | .refused _ => none

/-- The instruction memory of a program, slot `i` at `4 * i`. -/
def image (ws : List Word) : Memory :=
  { slots := ws.zipIdx.map (fun p => { location := 4 * p.2, code := p.1 }), nextAddr := 4 * ws.length }

/-- The start state of the vectors V-ADD to V-DIV: `x[8] = a`, `x[9] = b`, `x[10]`, Hi and Lo filled, a program loaded. -/
def start (a b : Word) (ws : List Word) : State :=
  { x := ((State.reset.x.set 8 a).set 9 b).set 10 0x11111111, hi := 0xAAAA5555, lo := 0x5555AAAA, pc := 0,
    run := .running, imem := image ws }

/-- The start state with another `pc`. -/
def startAt (pc : Word) (ws : List Word) : State := (start 5 7 ws).setPc pc

/-! ### Well-formedness: for each check a term it refuses, and one it accepts -/

theorem test_wellFormed_refuses_immediate :
    ({ opcode := 0, rs := 0, rt := 0, rd := 1, shamt := 0, funct := 0, immediate := 0, address := 0 } :
      DecodedInstruction).immediateAgrees = false := by decide

theorem test_wellFormed_refuses_address :
    ({ opcode := 0, rs := 1, rt := 0, rd := 0, shamt := 0, funct := 0, immediate := 0, address := 0 } :
      DecodedInstruction).addressAgrees = false := by decide

theorem test_wellFormed_refuses_record :
    ({ opcode := 0, rs := 0, rt := 0, rd := 0, shamt := 0, funct := 1, immediate := 0, address := 1 } :
      DecodedInstruction).wellFormed = false := by decide

theorem test_wellFormed_accepts_record : (decodeFields 0x21280096).wellFormed = true := by decide

theorem test_wellFormed_refuses_33_words : Program.wellFormed (List.replicate 33 0) = false := by decide

theorem test_wellFormed_accepts_32_words : Program.wellFormed (List.replicate 32 0) = true := by decide

/-! ### Decoding: each instruction's word written out bit by bit from R51 and R58 -/

/-- 000000 01000 01001 01010 00000 100001 -/
theorem test_decode_add : decode 0b00000001000010010101000000100001#32 = .instr (.add 8 9 10 0) := by decide
/-- 000000 01000 01001 01010 11111 100011, `shamt` ignored -/
theorem test_decode_sub : decode 0b00000001000010010101011111100011#32 = .instr (.sub 8 9 10 31) := by decide
/-- 000000 01000 01001 11111 00000 011001, V-MULT row 13 -/
theorem test_decode_mult : decode 0b00000001000010011111100000011001#32 = .instr (.mult 8 9 31 0) := by decide
/-- 000000 01000 01001 00000 00000 011011 -/
theorem test_decode_div : decode 0b00000001000010010000000000011011#32 = .instr (.div 8 9 0 0) := by decide
/-- 000000 00011 00100 01010 00111 010000, V-MF row 3 -/
theorem test_decode_mfhi : decode 0b00000000011001000101000111010000#32 = .instr (.mfhi 3 4 10 7) := by decide
/-- 000000 00000 00000 01010 00000 010010 -/
theorem test_decode_mflo : decode 0b00000000000000000101000000010010#32 = .instr (.mflo 0 0 10 0) := by decide
/-- 001000 01001 01000 1111111111111111, V-ADDI row 2 -/
theorem test_decode_addi : decode 0b00100001001010001111111111111111#32 = .instr (.addi 9 8 0xFFFF) := by decide
/-- 001100 01001 01000 1000000000000001, V-ANDI row 1 -/
theorem test_decode_andi : decode 0b00110001001010001000000000000001#32 = .instr (.andi 9 8 0x8001) := by decide
/-- 000010 11111111111111111111111111, V-J row 8 -/
theorem test_decode_j : decode 0b00001011111111111111111111111111#32 = .instr (.j 0x3FFFFFF) := by decide
/-- 000011 00000000000000000000011100, V-J row 1 -/
theorem test_decode_jal : decode 0b00001100000000000000000000011100#32 = .instr (.jal 28) := by decide

/-- V-DEC rows 1, 2 and 23. -/
theorem test_fields :
    decodeFields 0xFFFFFFFF =
      { opcode := 63, rs := 31, rt := 31, rd := 31, shamt := 31, funct := 63, immediate := -1, address := 67108863 } ∧
    decodeFields 0xDEADBEEF =
      { opcode := 55, rs := 21, rt := 13, rd := 23, shamt := 27, funct := 47, immediate := -16657, address := 44941039 } := by
  decide

/-- R61: `encodeR(8, 9, 10, 0, 33)`, `encodeI(8, 0, 8, -7)`, `encodeJ(3, 28)` of 95_test_vectors.md. -/
theorem test_encode : encode (.add 8 9 10 0) = 0x01095021 ∧ encode (.addi 0 8 (BitVec.ofInt 16 (-7))) = 0x2008FFF9 ∧
    encode (.jal 28) = 0x0C00001C := by decide

/-- V-FAULT rows 2 to 6, 12 and 14: words that are no instruction. -/
theorem test_decode_rejects :
    decode 0x00000000 = .unsupportedFunct ∧ decode 0xFFFFFFFF = .unsupportedOpcode ∧
    decode 0x8D0A0004 = .unsupportedOpcode ∧ decode 0x01095020 = .unsupportedFunct ∧
    decode 0x03E00008 = .unsupportedFunct ∧ decode 0x04000000 = .unsupportedOpcode ∧
    decode 0x00000011 = .unsupportedFunct ∧ decode 0x00000024 = .unsupportedFunct := by decide

/-! ### The instructions: one step of a loaded word -/

/-- V-ADD row 6. -/
theorem test_add_wraps : ((nextState (step (start 0x80000000 0xFFFFFFFF [0x01095021]))).map
    (fun t => (t.readReg 10, t.pc, t.hi))) = some (0x7FFFFFFF, 4, 0xAAAA5555) := by decide
/-- V-ADD row 15: register 0 is a destination like any other. -/
theorem test_add_register_zero : ((nextState (step (start 5 6 [0x01090021]))).map (fun t => t.readReg 0)) =
    some 0x0000000B := by decide
/-- V-SUB row 11. -/
theorem test_sub_wraps : ((nextState (step (start 0x7FFFFFFF 0xFFFFFFFF [0x01095023]))).map
    (fun t => (t.readReg 10, t.pc))) = some (0x80000000, 4) := by decide
/-- V-SUB row 7: the operand order. -/
theorem test_sub_order : ((nextState (step (start 5 7 [0x01095023]))).map (fun t => t.readReg 10)) =
    some 0xFFFFFFFE := by decide
/-- V-MULT row 11. -/
theorem test_mult_low_word : ((nextState (step (start 0x12345678 0x9ABCDEF0 [0x01090019]))).map
    (fun t => (t.lo, t.hi, t.readReg 0))) = some (0x242D2080, 0xAAAA5555, 0) := by decide
/-- V-MULT row 13: the `rd` field is ignored. -/
theorem test_mult_ignores_rd : ((nextState (step (start 6 7 [0x0109F819]))).map (fun t => (t.lo, t.readReg 31))) =
    some (0x2A, 0) := by decide
/-- V-DIV row 2: signed, toward zero. -/
theorem test_div_toward_zero : ((nextState (step (start 0xFFFFFFF9 2 [0x0109001B]))).map (fun t => (t.lo, t.pc))) =
    some (0xFFFFFFFD, 4) := by decide
/-- V-DIV rows 8 and 12 for the quotient, 2, 13 and 14 for the remainder. -/
theorem test_div_corners : quotientOf 0x80000000 0xFFFFFFFF = 0x80000000 ∧ quotientOf 0xFFFFFFFF 0x80000000 = 0 ∧
    remainderOf 0xFFFFFFF9 2 = 0xFFFFFFFF ∧ remainderOf 0x7FFFFFFF 0x80000000 = 0x7FFFFFFF ∧
    remainderOf 0x64 0xFFFFFFF9 = 2 := by decide
/-- V-DIV row 2, both columns of Hi. -/
theorem test_div_hi_both_ways :
    ((start 0xFFFFFFF9 2 []).commitDiv true 0xFFFFFFFD 0xFFFFFFFF).hi = 0xFFFFFFFF ∧
    ((start 0xFFFFFFF9 2 []).commitDiv false 0xFFFFFFFD 0xFFFFFFFF).hi = 0xAAAA5555 := by decide
/-- V-DIV row 17: the fault writes nothing but `run`. -/
theorem test_div_by_zero : nextState (step (start 0x80000000 0 [0x0109001B])) =
    some ((start 0x80000000 0 [0x0109001B]).raise .divisionByZero) := by decide
/-- V-MF row 3. -/
theorem test_mfhi : ((nextState (step (start 0 0 [0x006451D0]))).map (fun t => (t.readReg 10, t.hi, t.pc))) =
    some (0xAAAA5555, 0xAAAA5555, 4) := by decide
/-- V-MF row 4. -/
theorem test_mflo_register_zero : ((nextState (step (start 0 0 [0x00000012]))).map (fun t => t.readReg 0)) =
    some 0x5555AAAA := by decide
/-- V-ADDI row 7. -/
theorem test_addi_least : ((nextState (step (start 0 0x80000000 [0x21288000]))).map (fun t => t.readReg 8)) =
    some 0x7FFF8000 := by decide
/-- V-ADDI row 11: the destination is the source. -/
theorem test_addi_same_register : ((nextState (step (start 0 0 [0x2108FFFF]))).map (fun t => t.readReg 8)) =
    some 0xFFFFFFFF := by decide
/-- V-ANDI row 10: sign extension. -/
theorem test_andi_sign_extends : ((nextState (step (start 0 0xABCD1234 [0x3128F0F0]))).map (fun t => t.readReg 8)) =
    some 0xABCD1030 := by decide
/-- V-ANDI row 6. -/
theorem test_andi_clears : ((nextState (step (start 0 0x12345678 [0x312800FF]))).map (fun t => t.readReg 8)) =
    some 0x00000078 := by decide
/-- V-J row 2: the target is not shifted. -/
theorem test_j_raw : ((nextState (step (start 0 0 [0x0800001C]))).map (fun t => (t.pc, t.readReg 31))) =
    some (28, 0) := by decide
/-- P4, location 4: the link is the address of the JAL itself. -/
theorem test_jal_links_itself : ((nextState (step (startAt 4 [0x20080001, 0x0C000010]))).map
    (fun t => (t.pc, t.readReg 31))) = some (16, 4) := by decide

/-! ### The Run Loop, the memory and the launch -/

/-- V-FAULT row 1: the empty program halts at once. -/
theorem test_empty_halts : nextState (step State.reset) = some State.reset.halt := by decide
/-- V-J row 4: a misaligned `pc` past the end halts. -/
theorem test_misaligned_past_end_halts : ((nextState (step (startAt 9 [0x08000009, 0x20080001]))).map State.run) =
    some .halted := by decide
/-- V-J row 6: a misaligned `pc` inside the program. -/
theorem test_address_fault : ((nextState (step (startAt 6 [0x08000006, 0x20080001]))).map
    (fun t => (t.run, t.pc))) = some (.faulted .addressFault, 6) := by decide
/-- V-FAULT rows 4 and 5. -/
theorem test_unsupported : ((nextState (step (start 0 0 [0x8D0A0004]))).map State.run) =
      some (.faulted .unsupportedOpcode) ∧
    ((nextState (step (start 0 0 [0x01095020]))).map State.run) = some (.faulted .unsupportedFunct) := by decide
/-- V-FAULT row 11: further steps of a halted machine change nothing. -/
theorem test_halted_stays : nextState (step State.reset.halt) = some State.reset.halt := by decide
/-- R140: no step after a fault. -/
theorem test_aborted_stops : step (State.reset.raise .addressFault) = .fault (.aborted .addressFault) := rfl
/-- V-IMEM row 3. -/
theorem test_lookup : (image (List.replicate 5 0x21080001)).lookup 16 = some 0x21080001 ∧
    (image (List.replicate 5 0x21080001)).lookup 20 = none ∧
    (image (List.replicate 5 0x21080001)).lookup 18 = none := by decide
/-- V-IMEM row 5. -/
theorem test_append_33 : (image (List.replicate 32 0)).append 0 = .fault .capacityExceeded := rfl
/-- R152: the loader's appends make the image. -/
theorem test_launch : ((nextState (launch [0x21280096, 0x00005012])).map State.imem) =
    some (image [0x21280096, 0x00005012]) := by decide
/-- The word the host places is the one the next step runs, from reset and from a state inside a program. -/
theorem test_withFetchWord : ((nextState (step (State.reset.withFetchWord 32 0x21280096))).map
      (fun t => (t.readReg 8, t.pc))) = some (150, 4) ∧
    ((nextState (step ((startAt 4 [0, 0, 0]).withFetchWord 32 0x21280096))).map
      (fun t => (t.readReg 8, t.pc))) = some (157, 8) := by decide

/-! ### Hypotheses that something meets: one witness for each obligation that has hypotheses, clause by clause -/

/-- A state whose next fetch, at `pc` 0, reads `w`. -/
def reads (w : Word) : State := start 5 7 [w]

theorem reads_ready (w : Word) : (reads w).run = .running ∧ (reads w).pc.toNat < (reads w).imem.nextAddr ∧
    (reads w).imem.lookup (reads w).pc.toNat = some w := ⟨rfl, (by decide : (0 : Nat) < 4), rfl⟩

theorem witness_RecordKeepsEveryBit : (decodeFields 0xFFFFFFFF).wellFormed = true := by decide

theorem witness_EncodeOfDecode : decode 0x010957E1 = .instr (.add 8 9 10 31) := by decide

theorem witness_OpcodeTableDecides :
    (∃ r ∈ opcodeRows, (0x0C00001C : Word) &&& r.mask = r.matchBits) ∧
    (∀ r ∈ opcodeRows, (0x01095020 : Word) &&& r.mask ≠ r.matchBits) ∧
    (reads 0x01095020).run = .running ∧ (reads 0x01095020).fetch = some 0x01095020 := by decide

/-- The least and the greatest unlisted opcode, and a neighbour of ANDI's, each fetched by a running state (`reads_ready`). -/
theorem witness_UnlistedOpcode : ∀ w ∈ [(0x04000000 : Word), 0xFFFFFFFF, 0x34000000],
    (reads w).run = .running ∧ (reads w).pc.toNat < (reads w).imem.nextAddr ∧ (reads w).fetch = some w ∧
    (w.toNat >>> 26) &&& 0x3F ∉ [0, 2, 3, 8, 12] := by
  refine fun w h => ⟨rfl, (reads_ready w).2.1, rfl, ?_⟩
  rcases (by simpa using h : _ ∨ _ ∨ _) with rfl | rfl | rfl <;> decide

/-- The least and the greatest unlisted funct, and a neighbour of MFHI's, each fetched by a running state. -/
theorem witness_UnlistedFunct : ∀ w ∈ [(0x00000000 : Word), 0x0000003F, 0x00000011],
    (reads w).run = .running ∧ (reads w).pc.toNat < (reads w).imem.nextAddr ∧ (reads w).fetch = some w ∧
    (w.toNat >>> 26) &&& 0x3F = 0 ∧ w.toNat &&& 0x3F ∉ [16, 18, 25, 27, 33, 35] := by
  refine fun w h => ⟨rfl, (reads_ready w).2.1, rfl, ?_⟩
  rcases (by simpa using h : _ ∨ _ ∨ _) with rfl | rfl | rfl <;> decide

theorem witness_IgnoredFields :
    decode 0x01095021 = .instr (.add 8 9 10 0) ∧
    (0x01095021 : Word) &&& (Instr.add 8 9 10 0).usedBits = 0x010957E1 &&& (Instr.add 8 9 10 0).usedBits ∧
    decode 0x00005010 = .instr (.mfhi 0 0 10 0) ∧
    (0x00005010 : Word) &&& (Instr.mfhi 0 0 10 0).usedBits = 0x006451D0 &&& (Instr.mfhi 0 0 10 0).usedBits := by decide

theorem witness_DivWritesSignedQuotient : (start 7 1 []).readReg 9 ≠ 0 ∧ (start 7 0xFFFFFFFF []).readReg 9 ≠ 0 := by
  decide

theorem witness_DivOverflowWraps : (start 0x80000000 0xFFFFFFFF []).readReg 8 = 0x80000000 ∧
    (start 0x80000000 0xFFFFFFFF []).readReg 9 = 0xFFFFFFFF := by decide

theorem witness_DivByZeroRaises : (start 0 0 [0x0109001B]).readReg 9 = 0 ∧ (start 0 0 [0x0109001B]).run = .running ∧
    (start 0 0 [0x0109001B]).pc.toNat < (start 0 0 [0x0109001B]).imem.nextAddr ∧
    (start 0 0 [0x0109001B]).fetch = some (encode (.div 8 9 0 0)) := by decide

theorem witness_masks : (0x006451D0 : Word) &&& 0xFC00003F = 0x00000010 ∧
    (0x00000012 : Word) &&& 0xFC00003F = 0x00000012 ∧ (0x0BFFFFFF : Word) &&& 0xFC000000 = 0x08000000 ∧
    (0x0C00001C : Word) &&& 0xFC000000 = 0x0C000000 := by decide

/-- Instructions answer next states; a storing form, a Lo form, the fault and a jump among them. -/
theorem witness_InstructionsWriteOnlyTheirDestinations :
    exec (.add 8 9 10 0) (start 5 7 []) = .next ((start 5 7 []).commitReg 10 12) ∧
    exec (.mult 8 9 0 0) (start 5 7 []) = .next ((start 5 7 []).commitLo 35) ∧
    exec (.div 8 9 0 0) (start 5 0 []) = .next ((start 5 0 []).raise .divisionByZero) ∧
    exec (.j 28) (start 5 7 []) = .next ((start 5 7 []).setPc 28) := ⟨rfl, rfl, rfl, rfl⟩

/-- The start state with another Hi. -/
def startHi (a b : Word) : State := (start a b []).setHi 1

/-- Two running states that agree in what an ADD, an MFHI or an MFLO reads, differ elsewhere, and are left in next states. -/
theorem witness_ResultsDependOnlyOnSources :
    (start 5 7 []).run = .running ∧ (startHi 5 7).run = .running ∧ (start 5 7 []).pc = (startHi 5 7).pc ∧
    (∀ r ∈ (Instr.add 8 9 10 0).sources, (start 5 7 []).readReg r = (startHi 5 7).readReg r) ∧
    (start 5 7 []).hi ≠ (startHi 5 7).hi ∧
    exec (.add 8 9 10 0) (start 5 7 []) = .next ((start 5 7 []).commitReg 10 12) ∧
    exec (.add 8 9 10 0) (startHi 5 7) = .next ((startHi 5 7).commitReg 10 12) ∧
    (start 5 7 []).pc = (start 6 7 []).pc ∧ (start 5 7 []).hi = (start 6 7 []).hi ∧
    (start 5 7 []).lo = (start 6 7 []).lo ∧ (start 5 7 []).readReg 8 ≠ (start 6 7 []).readReg 8 ∧
    exec (.mfhi 0 0 10 0) (start 6 7 []) = .next ((start 6 7 []).commitReg 10 0xAAAA5555) ∧
    exec (.mflo 0 0 10 0) (start 6 7 []) = .next ((start 6 7 []).commitReg 10 0x5555AAAA) :=
  ⟨rfl, rfl, rfl, by decide, by decide, rfl, rfl, rfl, rfl, rfl, by decide, rfl, rfl⟩

/-- A step that completes, one that halts, one that faults and one from a halted state. -/
theorem witness_steps :
    step (reads 0x00005012) = .next ((reads 0x00005012).commitReg 10 0x5555AAAA) ∧
    step State.reset = .next State.reset.halt ∧
    step (startAt 2 [0x08000002]) = .next ((startAt 2 [0x08000002]).raise .addressFault) ∧
    step State.reset.halt = .next State.reset.halt := ⟨rfl, rfl, rfl, rfl⟩

/-- The only hypothesis is a divisor that is not zero; a small one and the greatest pattern. -/
theorem witness_HiLoHaveNoLatency : (start 6 7 []).readReg 9 ≠ 0 ∧ (start 6 0xFFFFFFFF []).readReg 9 ≠ 0 := by decide

theorem witness_StepRunsDecodedInstruction : (reads 0x0C00001C).run = .running ∧
    (reads 0x0C00001C).pc.toNat < (reads 0x0C00001C).imem.nextAddr ∧
    (reads 0x0C00001C).fetch = some 0x0C00001C ∧ decode 0x0C00001C = .instr (.jal 28) := by decide

/-- Running at NextAddr exactly, and one word below it. -/
theorem witness_HaltsExactlyPastTheEnd : (startAt 4 [0x20000000]).run = .running ∧
    (startAt 4 [0x20000000]).pastEnd ∧ ¬ (startAt 0 [0x20000000]).pastEnd := by decide

/-- The first and the last misaligned address below NextAddr, and an aligned one. -/
theorem witness_AddressFaultExactlyWhenMisaligned : (startAt 1 [0, 0]).imem.wf ∧ (startAt 1 [0, 0]).run = .running ∧
    (startAt 1 [0, 0]).pc.toNat % 4 ≠ 0 ∧ (startAt 7 [0, 0]).pc.toNat < (startAt 7 [0, 0]).imem.nextAddr ∧
    (startAt 7 [0, 0]).pc.toNat % 4 ≠ 0 ∧ (startAt 4 [0, 0]).pc.toNat % 4 = 0 := by decide

/-- Each of the four faults is the end of some step from Running. -/
theorem witness_FaultsArePrecise :
    ((nextState (step (startAt 2 [0x08000002]))).map State.run) = some (.faulted .addressFault) ∧
    ((nextState (step (reads 0x8D0A0004))).map State.run) = some (.faulted .unsupportedOpcode) ∧
    ((nextState (step (reads 0x00000000))).map State.run) = some (.faulted .unsupportedFunct) ∧
    ((nextState (step (start 5 0 [0x0109001B]))).map State.run) = some (.faulted .divisionByZero) := by decide

theorem witness_EndedRunsStayEnded : State.reset.halt.run = .halted ∧
    (State.reset.raise .divisionByZero).run = .faulted .divisionByZero ∧ State.reset.halt.run ≠ .running ∧
    core.run 2 State.reset.halt = .next State.reset.halt := ⟨rfl, rfl, by decide, rfl⟩

/-- A J and a JAL to their own address, 4. -/
theorem witness_JumpToItselfNeverEnds : (startAt 4 [0, 0x08000004]).run = .running ∧
    (startAt 4 [0, 0x08000004]).pc.toNat < (startAt 4 [0, 0x08000004]).imem.nextAddr ∧
    (startAt 4 [0, 0x08000004]).fetch = some (encode (.j 4)) ∧
    (4 : JumpAddress).toNat = (startAt 4 [0, 0x08000004]).pc.toNat ∧
    (startAt 4 [0, 0x0C000004]).run = .running ∧
    (startAt 4 [0, 0x0C000004]).pc.toNat < (startAt 4 [0, 0x0C000004]).imem.nextAddr ∧
    (startAt 4 [0, 0x0C000004]).fetch = some (encode (.jal 4)) ∧
    (4 : JumpAddress).toNat = (startAt 4 [0, 0x0C000004]).pc.toNat := by decide

/-- One target for each row of the table: at NextAddr, misaligned below it, resident in the last slot. -/
theorem witness_JumpTargetIsCheckedByTheNextStep : (reads 0x08000002).run = .running ∧ (reads 0x08000002).imem.wf ∧
    (reads 0x08000002).imem.nextAddr ≤ (4 : JumpAddress).toNat ∧
    ¬ (reads 0x08000002).imem.nextAddr ≤ (3 : JumpAddress).toNat ∧ (3 : JumpAddress).toNat % 4 ≠ 0 ∧
    ¬ (reads 0x08000002).imem.nextAddr ≤ (0 : JumpAddress).toNat ∧ (0 : JumpAddress).toNat % 4 = 0 := by decide

theorem witness_PathDoesNotDependOnData : (start 5 7 [0x01095021]).samePath (start 6 8 [0x01095021]) ∧
    start 5 7 [0x01095021] ≠ start 6 8 [0x01095021] ∧
    core.run 1 (start 5 7 [0x01095021]) = .next ((start 5 7 [0x01095021]).commitReg 10 12) ∧
    core.run 1 (start 6 8 [0x01095021]) = .next ((start 6 8 [0x01095021]).commitReg 10 14) :=
  ⟨⟨rfl, rfl, rfl⟩, by decide, rfl, rfl⟩

/-- A full memory, one with a slot free, and programs of 32 and of 33 words. -/
theorem witness_AppendFillsContiguously : (image (List.replicate 32 0)).size = 32 ∧
    (image (List.replicate 31 0)).size ≠ 32 ∧ (List.replicate 32 (0 : Word)).length ≤ 32 ∧
    32 < (List.replicate 33 (0 : Word)).length := by decide

theorem witness_LookupHasClosedForm : (image (List.replicate 32 7)).wf ∧ (image []).wf := by decide

/-- A launch of one ADDI (`x[8] <- x[0] + 1`) with chosen Hi and Lo, and the state one step of that same run later. -/
theorem witness_FetchReturnsTheLoadedWord : ∃ s t, launchWith State.reset.x 1 2 [0x20080001] = .next s ∧
    core.run 1 s = .next t ∧ t.readReg 8 = 1 ∧ t.pc = 4 ∧ t.hi = 1 ∧ t.lo = 2 :=
  ⟨_, _, rfl, rfl, by decide, by decide, rfl, rfl⟩

/-- A launch of the empty program, and the halted state one step later. -/
theorem witness_RunsFromLaunchHaveInvariant : ∃ s t, launchWith State.reset.x 0 0 [] = .next s ∧
    core.run 1 s = .next t ∧ t.run = .halted := ⟨_, _, rfl, rfl, rfl⟩

theorem witness_LaunchLoadsTheProgram : Program.wellFormed (List.replicate 32 0xFFFFFFFF) = true ∧
    Program.wellFormed (List.replicate 33 0xFFFFFFFF) = false := by decide

/-- A running, a halted and an aborted state with the invariant, and a next state of the first. -/
theorem witness_StepKeepsInvariant : State.reset.Inv ∧ State.reset.halt.Inv ∧
    ((startAt 2 [0x08000002]).raise .addressFault).Inv ∧ step State.reset = .next State.reset.halt :=
  ⟨⟨by decide, by decide, trivial⟩, ⟨by decide, by decide, Nat.zero_le _⟩,
    ⟨by decide, by decide, by decide, rfl⟩, rfl⟩

/-- Ends of runs from states with the invariant: one halts, one is aborted. -/
theorem witness_EndOfRunIsExplained : State.reset.Inv ∧ core.run 1 State.reset = .next State.reset.halt ∧
    (startAt 2 [0x08000002]).Inv ∧
    core.run 1 (startAt 2 [0x08000002]) = .next ((startAt 2 [0x08000002]).raise .addressFault) :=
  ⟨⟨by decide, by decide, trivial⟩, rfl, ⟨by decide, by decide, trivial⟩, rfl⟩

end Sys2Proof.Tests
end

section
/-! How `pc` moves (R16): per instruction first, then per step. -/

namespace Sys2Proof.Machine

open Sys2Proof

/-- The raw address field that J and JAL leave in `pc` (R16) is the target their meanings compute (R57). -/
theorem nextPc_j (addr : JumpAddress) (pc : Word) : (Instr.j addr).nextPc pc = addr.setWidth 32 :=
  BitVec.ofNat_toNat 32 addr

theorem nextPc_jal (addr : JumpAddress) (pc : Word) : (Instr.jal addr).nextPc pc = addr.setWidth 32 :=
  BitVec.ofNat_toNat 32 addr

/-- How an instruction ends: DIV raises its own fault and changes nothing else, or the instruction completes, which keeps
the run state and moves `pc` as R16 says. -/
theorem exec_raises_or_completes {i : Instr} {s t : State} (h : exec i s = .next t) :
    (i.isDiv = true ∧ t = s.raise .divisionByZero) ∨ (t.run = s.run ∧ t.pc = i.nextPc s.pc) := by
  cases i with
  | div rs rt rd shamt =>
    rw [exec_div] at h
    split at h <;> cases h
    · exact .inl ⟨rfl, rfl⟩
    · exact .inr ⟨rfl, rfl⟩
  | j addr => cases h; exact .inr ⟨rfl, (nextPc_j addr s.pc).symm⟩
  | jal addr => cases h; exact .inr ⟨rfl, (nextPc_jal addr s.pc).symm⟩
  | _ => cases h; exact .inr ⟨rfl, rfl⟩

/-- A step outside Running answers a next state only in a halted machine, and then the same state. -/
theorem step_ended_eq {s t : State} (hrun : s.run ≠ .running) (h : step s = .next t) : t = s := by
  obtain ⟨hself, -⟩ | ⟨k, -, hfault⟩ := step_ended hrun
  · rw [hself] at h; cases h; rfl
  · rw [hfault] at h; cases h

/-- Settles O24: outside Running a step answers the same state; from Running every end but a completed instruction is a
halt or a raised fault, which write only `run`. -/
theorem pcMovesOnlyByInstructions : Obligations.PcMovesOnlyByInstructions := by
  unfold Obligations.PcMovesOnlyByInstructions
  intro s t h
  by_cases hrun : s.run = .running
  · cases step_cases hrun h with
    | halts _ ht | missing _ _ ht | badOpcode _ _ _ _ ht | badFunct _ _ _ _ ht =>
      subst ht; exact .inl ⟨rfl, .inr (by simp)⟩
    | executes w i _ hw hd ht =>
      obtain ⟨-, rfl⟩ | ⟨hkeep, hpc⟩ := exec_raises_or_completes ht
      · exact .inl ⟨rfl, .inr (by simp)⟩
      · exact .inr ⟨w, i, hw, hd, hkeep.trans hrun, hpc⟩
  · exact .inl ⟨congrArg State.pc (step_ended_eq hrun h), .inl hrun⟩

end Sys2Proof.Machine
end

section
/-! The instruction memory (R22, R32 to R35, R41): what loading and the lookup answer for a memory in its form, and that
nothing the machine does afterwards changes it. -/

namespace Sys2Proof.Machine

open Sys2Proof

section Loading

variable {m m' : Memory} {w : Word} {ws : List Word}

/-- The program a memory holds: the words of its slots, in order. -/
def Memory.codes (m : Memory) : List Word := m.slots.map InstructionSlot.code

@[simp] theorem Memory.codes_initialize : Memory.initialize.codes = [] := rfl

@[simp] theorem Memory.length_codes (m : Memory) : m.codes.length = m.size := List.length_map _

theorem Memory.append_of_full (h : m.size = Config.imemSlots) : m.append w = .fault .capacityExceeded := if_pos h

/-- An `append` to a memory that is not full succeeds; what it makes stands in `Memory.append_cases`. -/
theorem Memory.append_answers (h : m.size ≠ Config.imemSlots) : ∃ m', m.append w = .next m' := ⟨_, if_neg h⟩

theorem Memory.append_codes (h : m.append w = .next m') : m'.codes = m.codes ++ [w] := by
  obtain ⟨-, hslots, -⟩ := Memory.append_cases h
  simp [Memory.codes, hslots]

theorem Memory.append_size (h : m.append w = .next m') : m'.size = m.size + 1 := by
  simpa using congrArg List.length (Memory.append_codes h)

theorem Memory.appendAll_cons (h : m.append w = .next m') : m.appendAll (w :: ws) = m'.appendAll ws := by
  simp only [Memory.appendAll, h]

theorem Memory.appendAll_cons_of_full (h : m.size = Config.imemSlots) :
    m.appendAll (w :: ws) = .fault .capacityExceeded := by
  simp only [Memory.appendAll, Memory.append_of_full h]

/-- Words that fit are all loaded, after the words already there and in their order. -/
theorem Memory.appendAll_answers (h : m.size + ws.length ≤ Config.imemSlots) :
    ∃ m', m.appendAll ws = .next m' ∧ m'.codes = m.codes ++ ws := by
  induction ws generalizing m with
  | nil => exact ⟨m, rfl, by simp⟩
  | cons w ws ih =>
    rw [List.length_cons] at h
    obtain ⟨m₁, h₁⟩ := Memory.append_answers (w := w) (show m.size ≠ Config.imemSlots by omega)
    obtain ⟨m', h', hcodes⟩ := ih (m := m₁) (by rw [Memory.append_size h₁]; omega)
    exact ⟨m', (Memory.appendAll_cons h₁).trans h', by rw [hcodes, Memory.append_codes h₁]; simp⟩

/-- Words that do not all fit are refused: the loader gets to a full memory with a word left over. -/
theorem Memory.appendAll_of_overfull (hm : m.size ≤ Config.imemSlots) (h : Config.imemSlots < m.size + ws.length) :
    m.appendAll ws = .fault .capacityExceeded := by
  induction ws generalizing m with
  | nil => exact absurd h (by simpa using hm)
  | cons w ws ih =>
    by_cases hfull : m.size = Config.imemSlots
    · exact Memory.appendAll_cons_of_full hfull
    · rw [List.length_cons] at h
      obtain ⟨m₁, h₁⟩ := Memory.append_answers (w := w) hfull
      have hsize := Memory.append_size h₁
      rw [Memory.appendAll_cons h₁]
      exact ih (by omega) (by omega)

/-- Whatever the loader makes from the empty memory has the form of R22 and holds exactly the words it was given. -/
theorem Memory.appendAll_initialize (h : Memory.initialize.appendAll ws = .next m) : m.wf ∧ m.codes = ws := by
  refine ⟨Memory.appendAll_wf Memory.initialize_wf h, ?_⟩
  by_cases hfit : ws.length ≤ Config.imemSlots
  · obtain ⟨m', h', hcodes⟩ := Memory.appendAll_answers (m := Memory.initialize) (ws := ws) (by simpa using hfit)
    rw [h] at h'; cases h'
    simpa using hcodes
  · rw [Memory.appendAll_of_overfull (by simp) (by simpa using hfit)] at h
    cases h

end Loading

section Lookup

variable {m : Memory} {w : Word} {a k : Nat}

/-- The form of R22 fixes the location of a slot by its index. -/
theorem Memory.location_of_wf (hm : m.wf) (hk : k < m.slots.length) : m.slots[k].location = 4 * k := by
  obtain ⟨hloc, -, -⟩ := hm
  simpa [Memory.size, hk, Config.imemStride] using congrArg (·[k]?) hloc

/-- In the form of R22 a slot is given by its index and its word. -/
theorem Memory.slot_of_code (hm : m.wf) (h : m.codes[k]? = some w) :
    m.slots[k]? = some { location := 4 * k, code := w } := by
  obtain ⟨slot, hslot, rfl⟩ : ∃ slot, m.slots[k]? = some slot ∧ slot.code = w := by simpa [Memory.codes] using h
  obtain ⟨hk, rfl⟩ := List.getElem?_eq_some_iff.1 hslot
  rw [hslot, ← Memory.location_of_wf hm hk]

/-- The scan stops at slot `k`: the slots before it have other locations. -/
theorem Memory.lookup_slot (hm : m.wf) (hk : k < m.slots.length) : m.lookup (4 * k) = some m.slots[k].code := by
  have hfind : m.slots.find? (fun slot => slot.location == 4 * k) = some m.slots[k] := by
    refine List.find?_eq_some_iff_getElem.2 ⟨by simp [Memory.location_of_wf hm hk], k, hk, rfl, fun j hj => ?_⟩
    simp only [Memory.location_of_wf hm, Bool.not_eq_true', beq_eq_false_iff_ne]
    omega
  simp [Memory.lookup, hfind]

/-- The scan finds nothing at an address that is no slot's location. -/
theorem Memory.lookup_eq_none (hm : m.wf) (h : ∀ k < m.slots.length, 4 * k ≠ a) : m.lookup a = none := by
  have hfind : m.slots.find? (fun slot => slot.location == a) = none := by
    refine List.find?_eq_none.2 fun slot hslot => ?_
    obtain ⟨k, hk, rfl⟩ := List.getElem_of_mem hslot
    simpa [Memory.location_of_wf hm hk] using h k hk
  simp [Memory.lookup, hfind]

/-- The lookup as indexing (R34, R35): the word of slot `a / 4` for an aligned address, if there is such a slot. -/
theorem Memory.lookup_eq (hm : m.wf) (a : Nat) : m.lookup a = if a % 4 = 0 then m.codes[a / 4]? else none := by
  by_cases hslot : a % 4 = 0 ∧ a / 4 < m.slots.length
  · obtain ⟨halign, hk⟩ := hslot
    have h := Memory.lookup_slot hm hk
    rw [show 4 * (a / 4) = a by omega] at h
    simp [h, halign, Memory.codes, hk]
  · rw [Memory.lookup_eq_none hm (by omega)]
    split
    · exact (List.getElem?_eq_none (by rw [Memory.length_codes, Memory.size]; omega)).symm
    · rfl

end Lookup

section Runs

/-- No instruction writes the instruction memory (R44): there is no store. -/
theorem exec_imem {i : Instr} {s t : State} (h : exec i s = .next t) : t.imem = s.imem := by
  cases i with
  | div rs rt rd shamt => rw [exec_div] at h; split at h <;> cases h <;> rfl
  | _ => cases h; rfl

theorem step_imem {s t : State} (h : step s = .next t) : t.imem = s.imem := by
  by_cases hrun : s.run = .running
  · cases step_cases hrun h with
    | halts _ ht | missing _ _ ht | badOpcode _ _ _ _ ht | badFunct _ _ _ _ ht => subst ht; rfl
    | executes _ _ _ _ _ ht => exact exec_imem ht
  · rw [step_ended_eq hrun h]

theorem run_succ_cases {n : Nat} {s t : State} (h : core.run (n + 1) s = .next t) :
    ∃ s', step s = .next s' ∧ core.run n s' = .next t := by
  simp only [Host.Core.run] at h
  split at h
  · exact ⟨_, ‹_›, h⟩
  · cases h
  · cases h

/-- What every step keeps, every run keeps. -/
theorem run_keeps {P : State → Prop} (hstep : ∀ s t, P s → step s = .next t → P t) {n : Nat} {s t : State} (hs : P s)
    (h : core.run n s = .next t) : P t := by
  induction n generalizing s with
  | zero => cases h; exact hs
  | succ n ih =>
    obtain ⟨s', hs', hrest⟩ := run_succ_cases h
    exact ih (hstep s s' hs hs') hrest

theorem run_imem {n : Nat} {s t : State} (h : core.run n s = .next t) : t.imem = s.imem :=
  run_keeps (P := fun u => u.imem = s.imem) (fun _ _ hu hstep => (step_imem hstep).trans hu) rfl h

/-- A launch that answers a state has loaded the program, and the rest of the state is the start values (R152). -/
theorem launchWith_cases {x : Vector Word 32} {hi lo : Word} {ws : List Word} {s : State}
    (h : launchWith x hi lo ws = .next s) :
    ∃ m, Memory.initialize.appendAll ws = .next m ∧
      s = { x := x, hi := hi, lo := lo, pc := 0, run := .running, imem := m } := by
  unfold launchWith at h
  split at h
  · cases h; exact ⟨_, ‹_›, rfl⟩
  · cases h
  · cases h

end Runs

/-- Settles O39: one `append` by `Memory.append_cases`; `n` of them by the words they leave, in the form of R22; too
many by `Memory.appendAll_of_overfull`. -/
theorem appendFillsContiguously : Obligations.AppendFillsContiguously := by
  unfold Obligations.AppendFillsContiguously
  refine ⟨fun m w hfull => Memory.append_of_full hfull, fun m w hfree => ?_, fun ws hfit => ?_, fun ws hover => ?_⟩
  · obtain ⟨m', h⟩ := Memory.append_answers (w := w) hfree
    obtain ⟨-, hslots, hnext⟩ := Memory.append_cases h
    exact ⟨m', h, hslots, Memory.append_size h, hnext⟩
  · obtain ⟨m, h, -⟩ := Memory.appendAll_answers (m := Memory.initialize) (ws := ws)
      (by simpa [Config.imemSlots] using hfit)
    obtain ⟨hm, rfl⟩ := Memory.appendAll_initialize h
    have ⟨_, hnext, _⟩ := hm
    exact ⟨m, h, by simp, by simpa [Config.imemStride] using hnext, fun k w hw => Memory.slot_of_code hm hw⟩
  · exact Memory.appendAll_of_overfull (by simp) (by simpa [Config.imemSlots] using hover)

/-- Settles O40: an index past the last slot has no word, so the bound on `a / 4` adds nothing to `Memory.lookup_eq`. -/
theorem lookupHasClosedForm : Obligations.LookupHasClosedForm := by
  unfold Obligations.LookupHasClosedForm
  intro m a hm
  rw [Memory.lookup_eq hm, Memory.codes, List.getElem?_map]
  by_cases hk : a / 4 < m.size
  · simp only [hk, and_true]
  · have hnone : m.slots[a / 4]? = none := List.getElem?_eq_none (Nat.le_of_not_lt hk)
    simp [hk, hnone]

/-- Settles O41: a step ends by writing only `run`, or as its instruction does, and none of the ten stores. -/
theorem stepsLeaveTheMemory : Obligations.StepsLeaveTheMemory := by
  unfold Obligations.StepsLeaveTheMemory
  exact fun _ _ => step_imem

/-- Settles O42: the run leaves the memory as the launch loaded it, and there the lookup is indexing. -/
theorem fetchReturnsTheLoadedWord : Obligations.FetchReturnsTheLoadedWord := by
  unfold Obligations.FetchReturnsTheLoadedWord
  intro x hi lo ws s t n a hlaunch hrun
  obtain ⟨m, hload, rfl⟩ := launchWith_cases hlaunch
  obtain ⟨hm, rfl⟩ := Memory.appendAll_initialize hload
  rw [run_imem hrun]
  exact Memory.lookup_eq hm a

end Sys2Proof.Machine
end

section
/-! The decoder's record (R52, R53): its fields as shifts and masks of the word, and the word as its opcode and
address. -/

namespace Sys2Proof

section Slices

variable (w : Word)

/-- A field of the spec is a shift and a mask (R5). -/
theorem bitField_toNat (lo len : Nat) : (bitField w lo len).toNat = (w.toNat >>> lo) &&& (2 ^ len - 1) := by
  rw [bitField, BitVec.extractLsb'_toNat, Nat.and_two_pow_sub_one_eq_mod]

theorem decodeFields_opcode_slice : (decodeFields w).opcode.toNat = (w.toNat >>> 26) &&& 0x3F := bitField_toNat w 26 6
theorem decodeFields_funct_slice : (decodeFields w).funct.toNat = w.toNat &&& 0x3F := bitField_toNat w 0 6
theorem decodeFields_immediate_slice : (decodeFields w).immediate.toNat = w.toNat &&& 0xFFFF := bitField_toNat w 0 16

theorem decodeFields_immediate_toInt :
    (decodeFields w).immediate.toInt =
      if w.toNat &&& 0xFFFF < 32768 then ((w.toNat &&& 0xFFFF : Nat) : Int)
      else ((w.toNat &&& 0xFFFF : Nat) : Int) - 65536 := by
  rw [BitVec.toInt_eq_toNat_cond, decodeFields_immediate_slice]
  split <;> split <;> omega

/-- The word is its opcode, then its address; the other fields repeat bits of the address (R53). -/
theorem toNat_eq_opcode_address :
    w.toNat = (decodeFields w).opcode.toNat * 2 ^ 26 + (decodeFields w).address.toNat := by
  rw [decodeFields_opcode, decodeFields_address]
  omega

end Slices

theorem DecodedInstruction.wellFormed_iff {d : DecodedInstruction} :
    d.wellFormed = true ↔
      d.immediate.toNat = d.rd.toNat * 2048 + d.shamt.toNat * 64 + d.funct.toNat ∧
      d.address.toNat = d.rs.toNat * 2 ^ 21 + d.rt.toNat * 2 ^ 16 + d.immediate.toNat := by
  simp only [wellFormed, immediateAgrees, addressAgrees, Bool.and_eq_true, beq_iff_eq]

theorem decodeFields_wellFormed (w : Word) : (decodeFields w).wellFormed = true := by
  rw [DecodedInstruction.wellFormed_iff, decodeFields_immediate, decodeFields_rd, decodeFields_shamt,
    decodeFields_funct, decodeFields_address, decodeFields_rs, decodeFields_rt]
  omega

/-- The overlaps of R53 leave two free fields: a well-formed record is fixed by its opcode and its address. -/
theorem DecodedInstruction.ext_of_wellFormed {d e : DecodedInstruction} (hd : d.wellFormed = true)
    (he : e.wellFormed = true) (hop : d.opcode = e.opcode) (haddr : d.address = e.address) : d = e := by
  obtain ⟨hdi, hda⟩ := wellFormed_iff.1 hd
  obtain ⟨hei, hea⟩ := wellFormed_iff.1 he
  obtain ⟨dop, drs, drt, drd, dsh, dfn, dimm, daddr⟩ := d
  obtain ⟨eop, ers, ert, erd, esh, efn, eimm, eaddr⟩ := e
  simp only at hop haddr hdi hda hei hea
  subst hop haddr
  have himm : dimm = eimm := by bv_omega
  have hrs : drs = ers := by bv_omega
  have hrt : drt = ert := by bv_omega
  have hrd : drd = erd := by bv_omega
  have hsh : dsh = esh := by bv_omega
  have hfn : dfn = efn := by bv_omega
  rw [himm, hrs, hrt, hrd, hsh, hfn]

/-- Settles O1: each field by `bitField_toNat`, the signed immediate by its two halves. -/
theorem decoderFieldsAreBitSlices : Obligations.DecoderFieldsAreBitSlices := by
  unfold Obligations.DecoderFieldsAreBitSlices
  refine ⟨fun w => ?_, by decide⟩
  exact ⟨decodeFields_opcode_slice w, bitField_toNat w 21 5, bitField_toNat w 16 5, bitField_toNat w 11 5,
    bitField_toNat w 6 5, decodeFields_funct_slice w, decodeFields_immediate_slice w, decodeFields_immediate_toInt w,
    bitField_toNat w 0 26⟩

/-- Settles O2: the converse holds because the record of the assembled word has the given opcode and address, and a
well-formed record has no other freedom. -/
theorem recordKeepsEveryBit : Obligations.RecordKeepsEveryBit := by
  unfold Obligations.RecordKeepsEveryBit
  refine ⟨fun w => ⟨decodeFields_wellFormed w, toNat_eq_opcode_address w⟩, fun d hd => ?_⟩
  have hw := toNat_eq_opcode_address (BitVec.ofNat 32 (d.opcode.toNat * 2 ^ 26 + d.address.toNat))
  rw [BitVec.toNat_ofNat] at hw
  exact DecodedInstruction.ext_of_wellFormed (decodeFields_wellFormed _) hd (by bv_omega) (by bv_omega)

end Sys2Proof
end

section
/-! Encoding and decoding are inverse to each other (R58, R61). -/

namespace Sys2Proof

variable {w : Word} {i : Instr}

theorem decode_eq_instr : decode w = .instr i ↔ SelectCase (decodeFields w) i := select_eq_instr

theorem encodeR_of_fields {f : BitVec 6} (ho : (decodeFields w).opcode = 0) (hf : (decodeFields w).funct = f) :
    encodeR (decodeFields w).rs (decodeFields w).rt (decodeFields w).rd (decodeFields w).shamt f = w :=
  hf ▸ encodeR_decodeFields w ho

theorem encodeI_of_fields {op : BitVec 6} (ho : (decodeFields w).opcode = op) :
    encodeI op (decodeFields w).rs (decodeFields w).rt (decodeFields w).immediate = w :=
  ho ▸ encodeI_decodeFields w

theorem encodeJ_of_fields {op : BitVec 6} (ho : (decodeFields w).opcode = op) :
    encodeJ op (decodeFields w).address = w :=
  ho ▸ encodeJ_decodeFields w

/-- Per format: the assembled word decodes to the fields it was assembled from, and its fixed fields select the row. -/
theorem decode_encode (i : Instr) : decode (encode i) = .instr i := by
  cases i with
  | add rs rt rd shamt | sub rs rt rd shamt | mult rs rt rd shamt | div rs rt rd shamt | mfhi rs rt rd shamt
  | mflo rs rt rd shamt => simp [encode, decode, select, selectRType, decodeFields_encodeR]
  | addi rs rt imm | andi rs rt imm => simp [encode, decode, select, decodeFields_encodeI]
  | j addr | jal addr => simp [encode, decode, select, decodeFields_encodeJ]

theorem encode_eq_of_decode (h : decode w = .instr i) : encode i = w := by
  cases decode_eq_instr.1 h with
  | add ho hf | sub ho hf | mult ho hf | div ho hf | mfhi ho hf | mflo ho hf => exact encodeR_of_fields ho hf
  | addi ho | andi ho => exact encodeI_of_fields ho
  | j ho | jal ho => exact encodeJ_of_fields ho

/-- Settles O3, by `decode_encode`. -/
theorem decodeOfEncode : Obligations.DecodeOfEncode := by
  unfold Obligations.DecodeOfEncode
  exact decode_encode

/-- Settles O4: the fixed fields that select an instruction are the ones its word is assembled with. -/
theorem encodeOfDecode : Obligations.EncodeOfDecode := by
  unfold Obligations.EncodeOfDecode
  exact fun _ _ => encode_eq_of_decode

end Sys2Proof
end

section
/-! Words that are no instruction (R58, R62, R63): the unlisted opcodes and functs, and the step that fetches such
a word. -/

namespace Sys2Proof

open Sys2Proof.Machine

variable {w : Word}

theorem decode_eq_unsupportedOpcode :
    decode w = .unsupportedOpcode ↔ (decodeFields w).opcode.toNat ∉ [0, 2, 3, 8, 12] := by
  rw [decode, select_unsupportedOpcode]
  simp only [List.mem_cons, List.not_mem_nil, or_false, not_or]
  bv_omega

theorem decode_eq_unsupportedFunct :
    decode w = .unsupportedFunct ↔
      (decodeFields w).opcode = 0 ∧ (decodeFields w).funct.toNat ∉ [16, 18, 25, 27, 33, 35] := by
  rw [decode, select_unsupportedFunct]
  refine and_congr_right fun _ => ?_
  simp only [List.mem_cons, List.not_mem_nil, or_false, not_or]
  bv_omega

section Fetched

variable {s : State} (hrun : s.run = .running) (hpc : s.pc.toNat < s.imem.nextAddr)
  (hw : s.imem.lookup s.pc.toNat = some w)
include hrun hpc hw

/-- A running state with a word resident at `pc` comes to the dispatch of that word (R113 to R115). -/
theorem beforeExec_fetched : beforeExec s = decodeStage s w := by
  simp only [beforeExec, hrun, fetchStage, if_neg (Nat.not_le.2 hpc), State.fetch, hw]

theorem step_unsupportedOpcode (hd : decode w = .unsupportedOpcode) : step s = .next (s.raise .unsupportedOpcode) := by
  simp only [step, beforeExec_fetched hrun hpc hw, decodeStage, hd]

theorem step_unsupportedFunct (hd : decode w = .unsupportedFunct) : step s = .next (s.raise .unsupportedFunct) := by
  simp only [step, beforeExec_fetched hrun hpc hw, decodeStage, hd]

end Fetched

/-- Settles O6: the shifted and masked word of R62 is the decoder's opcode, and the dispatch has no row for it. -/
theorem unlistedOpcodeRaisesUnsupportedOpcode : Obligations.UnlistedOpcodeRaisesUnsupportedOpcode := by
  unfold Obligations.UnlistedOpcodeRaisesUnsupportedOpcode
  intro s w hrun hpc hw hop
  rw [← decodeFields_opcode_slice] at hop
  exact step_unsupportedOpcode hrun hpc hw (decode_eq_unsupportedOpcode.2 hop)

/-- Settles O7: the masked words of R63 are the decoder's opcode and funct, and the dispatch has no row for them. -/
theorem unlistedFunctRaisesUnsupportedFunct : Obligations.UnlistedFunctRaisesUnsupportedFunct := by
  unfold Obligations.UnlistedFunctRaisesUnsupportedFunct
  intro s w hrun hpc hw hop hfn
  rw [← decodeFields_opcode_slice] at hop
  rw [← decodeFields_funct_slice] at hfn
  exact step_unsupportedFunct hrun hpc hw (decode_eq_unsupportedFunct.2 ⟨BitVec.eq_of_toNat_eq hop, hfn⟩)

end Sys2Proof
end

section
/-! Fields under a mask: the rows of the opcode table (R58) and the ignored fields (R60) speak of masked words, and a
mask keeps every field it has all bits of. -/

namespace Sys2Proof

open Sys2Proof.Machine

variable {w v : Word} {i : Instr}

section Masks

/-- Words that agree under a mask agree in every field the mask has all bits of. -/
theorem bitField_eq_of_and_eq {m : Word} {lo len : Nat} (hm : bitField m lo len = BitVec.allOnes len)
    (h : w &&& m = v &&& m) : bitField w lo len = bitField v lo len := by
  have hkeep (u : Word) : bitField (u &&& m) lo len = bitField u lo len := by
    rw [bitField, BitVec.extractLsb'_and, ← bitField, ← bitField, hm, BitVec.and_allOnes]
  rw [← hkeep w, h, hkeep v]

/-- The mask of an R-type row. -/
theorem opcode_funct_eq_of_mask (h : w &&& 0xFC00003F = v &&& 0xFC00003F) :
    (decodeFields w).opcode = (decodeFields v).opcode ∧ (decodeFields w).funct = (decodeFields v).funct :=
  ⟨bitField_eq_of_and_eq (by decide) h, bitField_eq_of_and_eq (by decide) h⟩

/-- The mask of an I-type or J-type row. -/
theorem opcode_eq_of_mask (h : w &&& 0xFC000000 = v &&& 0xFC000000) :
    (decodeFields w).opcode = (decodeFields v).opcode :=
  bitField_eq_of_and_eq (by decide) h

/-- The bits that ADD and SUB use. -/
theorem rs_rt_rd_eq_of_mask (h : w &&& 0xFFFFF83F = v &&& 0xFFFFF83F) :
    (decodeFields w).rs = (decodeFields v).rs ∧ (decodeFields w).rt = (decodeFields v).rt ∧
      (decodeFields w).rd = (decodeFields v).rd :=
  ⟨bitField_eq_of_and_eq (by decide) h, bitField_eq_of_and_eq (by decide) h, bitField_eq_of_and_eq (by decide) h⟩

/-- The bits that MULT and DIV use. -/
theorem rs_rt_eq_of_mask (h : w &&& 0xFFFF003F = v &&& 0xFFFF003F) :
    (decodeFields w).rs = (decodeFields v).rs ∧ (decodeFields w).rt = (decodeFields v).rt :=
  ⟨bitField_eq_of_and_eq (by decide) h, bitField_eq_of_and_eq (by decide) h⟩

/-- The bits that MFHI and MFLO use. -/
theorem rd_eq_of_mask (h : w &&& 0xFC00F83F = v &&& 0xFC00F83F) : (decodeFields w).rd = (decodeFields v).rd :=
  bitField_eq_of_and_eq (by decide) h

/-- The bits that the I-type and J-type instructions use: all of them. -/
theorem eq_of_full_mask (h : w &&& 0xFFFFFFFF = v &&& 0xFFFFFFFF) : w = v := by
  have hall : (0xFFFFFFFF : Word) = BitVec.allOnes 32 := by decide
  rwa [hall, BitVec.and_allOnes, BitVec.and_allOnes] at h

end Masks

/-- An instruction's word carries the bits of its row. -/
theorem encode_and_mask (i : Instr) : encode i &&& i.row.mask = i.row.matchBits := by
  cases i with
  | add rs rt rd shamt | sub rs rt rd shamt | mult rs rt rd shamt | div rs rt rd shamt | mfhi rs rt rd shamt
  | mflo rs rt rd shamt => exact Laws.EncodingRow.rtype rs rt rd shamt _
  | addi rs rt imm | andi rs rt imm => exact Laws.EncodingRow.itype rs rt imm _
  | j addr | jal addr => exact Laws.EncodingRow.jtype addr _

theorem and_mask_of_decode (h : decode w = .instr i) : w &&& i.row.mask = i.row.matchBits :=
  encode_eq_of_decode h ▸ encode_and_mask i

/-- No bit that a row fixes is ignored (R58, R60). -/
theorem Instr.usedBits_and_mask (i : Instr) : i.usedBits &&& i.row.mask = i.row.mask := by
  cases i <;> rw [usedBits, row] <;> decide

/-- A word that agrees in the bits of a row with a word of that row decodes to an instruction of the row, which does the
same in every state if the words also agree in the bits that are not ignored. -/
theorem decode_of_agree (hd : decode v = .instr i) (h : w &&& i.row.mask = v &&& i.row.mask) :
    ∃ i', decode w = .instr i' ∧ i'.row = i.row ∧
      (w &&& i.usedBits = v &&& i.usedBits → ∀ s, exec i' s = exec i s) := by
  cases decode_eq_instr.1 hd with
  | add ho hf =>
    obtain ⟨hop, hfn⟩ := opcode_funct_eq_of_mask h
    exact ⟨_, decode_eq_instr.2 (.add (hop.trans ho) (hfn.trans hf)), rfl,
      fun hu s => by simp only [exec_add, rs_rt_rd_eq_of_mask hu]⟩
  | sub ho hf =>
    obtain ⟨hop, hfn⟩ := opcode_funct_eq_of_mask h
    exact ⟨_, decode_eq_instr.2 (.sub (hop.trans ho) (hfn.trans hf)), rfl,
      fun hu s => by simp only [exec_sub, rs_rt_rd_eq_of_mask hu]⟩
  | mult ho hf =>
    obtain ⟨hop, hfn⟩ := opcode_funct_eq_of_mask h
    exact ⟨_, decode_eq_instr.2 (.mult (hop.trans ho) (hfn.trans hf)), rfl,
      fun hu s => by simp only [exec_mult, rs_rt_eq_of_mask hu]⟩
  | div ho hf =>
    obtain ⟨hop, hfn⟩ := opcode_funct_eq_of_mask h
    exact ⟨_, decode_eq_instr.2 (.div (hop.trans ho) (hfn.trans hf)), rfl,
      fun hu s => by simp only [exec_div, rs_rt_eq_of_mask hu]⟩
  | mfhi ho hf =>
    obtain ⟨hop, hfn⟩ := opcode_funct_eq_of_mask h
    exact ⟨_, decode_eq_instr.2 (.mfhi (hop.trans ho) (hfn.trans hf)), rfl,
      fun hu s => by simp only [exec_mfhi, rd_eq_of_mask hu]⟩
  | mflo ho hf =>
    obtain ⟨hop, hfn⟩ := opcode_funct_eq_of_mask h
    exact ⟨_, decode_eq_instr.2 (.mflo (hop.trans ho) (hfn.trans hf)), rfl,
      fun hu s => by simp only [exec_mflo, rd_eq_of_mask hu]⟩
  | addi ho =>
    exact ⟨_, decode_eq_instr.2 (.addi ((opcode_eq_of_mask h).trans ho)), rfl,
      fun hu s => by rw [eq_of_full_mask hu]⟩
  | andi ho =>
    exact ⟨_, decode_eq_instr.2 (.andi ((opcode_eq_of_mask h).trans ho)), rfl,
      fun hu s => by rw [eq_of_full_mask hu]⟩
  | j ho =>
    exact ⟨_, decode_eq_instr.2 (.j ((opcode_eq_of_mask h).trans ho)), rfl,
      fun hu s => by rw [eq_of_full_mask hu]⟩
  | jal ho =>
    exact ⟨_, decode_eq_instr.2 (.jal ((opcode_eq_of_mask h).trans ho)), rfl,
      fun hu s => by rw [eq_of_full_mask hu]⟩

section Rows

variable {r : OpcodeRow}

theorem mem_opcodeRows : r ∈ opcodeRows ↔ ∃ i : Instr, i.row = r := by
  constructor
  · intro h
    obtain ⟨i, -, hi⟩ := List.mem_map.1 (show r ∈ [Instr.add 0 0 0 0, .sub 0 0 0 0, .mult 0 0 0 0, .div 0 0 0 0,
      .mfhi 0 0 0 0, .mflo 0 0 0 0, .addi 0 0 0, .andi 0 0 0, .j 0, .jal 0].map Instr.row from h)
    exact ⟨i, hi⟩
  · rintro ⟨i, rfl⟩
    cases i <;> simp [opcodeRows, Instr.row]

/-- R58 for one row: the words of a row agree in its bits with the word of an instruction of the row. -/
theorem decode_row_iff (hr : r ∈ opcodeRows) :
    (∃ i, decode w = .instr i ∧ i.row = r) ↔ w &&& r.mask = r.matchBits := by
  constructor
  · rintro ⟨i, hd, rfl⟩
    exact and_mask_of_decode hd
  · intro h
    obtain ⟨i, rfl⟩ := mem_opcodeRows.1 hr
    obtain ⟨i', hd, hrow, -⟩ := decode_of_agree (decode_encode i) (h.trans (encode_and_mask i).symm)
    exact ⟨i', hd, hrow⟩

end Rows

/-- Settles O5: rows do not overlap because a word decodes to one instruction; a word of no row decodes to none. -/
theorem opcodeTableDecides : Obligations.OpcodeTableDecides := by
  unfold Obligations.OpcodeTableDecides
  refine ⟨fun r hr w => decode_row_iff hr, fun r hr r' hr' w h h' => ?_, fun s w hrun hpc hw hnone => ?_⟩
  · obtain ⟨i, hd, rfl⟩ := (decode_row_iff hr).2 h
    obtain ⟨i', hd', rfl⟩ := (decode_row_iff hr').2 h'
    rw [hd] at hd'
    cases hd'
    rfl
  · cases hd : decode w with
    | instr i => exact absurd (and_mask_of_decode hd) (hnone i.row (mem_opcodeRows.2 ⟨i, rfl⟩))
    | unsupportedOpcode => exact ⟨_, step_unsupportedOpcode hrun hpc hw hd⟩
    | unsupportedFunct => exact ⟨_, step_unsupportedFunct hrun hpc hw hd⟩

/-- Settles O9: the row's bits are among the bits that are not ignored, so `decode_of_agree` applies in full. -/
theorem ignoredFieldsHaveNoEffect : Obligations.IgnoredFieldsHaveNoEffect := by
  unfold Obligations.IgnoredFieldsHaveNoEffect
  intro w w' i hd hused
  have hmask : w' &&& i.row.mask = w &&& i.row.mask := by
    rw [← i.usedBits_and_mask, ← BitVec.and_assoc, ← BitVec.and_assoc, hused]
  obtain ⟨i', hd', hrow, hexec⟩ := decode_of_agree hd hmask
  exact ⟨i', hd', hrow, hexec hused.symm⟩

end Sys2Proof
end

section
/-! MFHI and MFLO (R83, R84): what the commit of a register result leaves, and the words that decode to the two. -/

namespace Sys2Proof

open Sys2Proof.Machine

/-- What the commit of a register result writes: `x[dest]` and `pc`, register 0 being no exception (R11). -/
theorem Machine.State.commitReg_eq (s : State) (dest : RegIdx) (v : Word) :
    s.commitReg dest v = { s with x := s.x.set dest.toNat v dest.isLt, pc := s.pc + 4 } := rfl

/-- The words of an R-type row (R58) have opcode 0 and the row's funct, whatever their other fields are. -/
theorem opcode_funct_of_rtype_row {w : Word} {funct : BitVec 6}
    (h : w &&& 0xFC00003F = (0 : BitVec 6) ++ (0 : BitVec 20) ++ funct) :
    (decodeFields w).opcode = 0 ∧ (decodeFields w).funct = funct := by
  obtain ⟨hop, hfn⟩ := opcode_funct_eq_of_mask (h.trans (Laws.EncodingRow.rtype 0 0 0 0 funct).symm)
  obtain ⟨hop', -, -, -, -, hfn'⟩ := decodeFields_encodeR funct 0 0 0 0
  exact ⟨hop.trans hop', hfn.trans hfn'⟩

/-- Settles O16: the next state by `State.commitReg_eq`, the decoded words by their opcode and funct. -/
theorem mfhiCopiesHi : Obligations.MfhiCopiesHi := by
  unfold Obligations.MfhiCopiesHi
  refine ⟨fun rs rt rd shamt s => ?_, fun w hw => ?_⟩
  · rw [exec_mfhi, State.commitReg_eq]
  · obtain ⟨hop, hfn⟩ := opcode_funct_of_rtype_row (funct := 16) hw
    exact ⟨_, _, _, decode_eq_instr.2 (.mfhi hop hfn)⟩

/-- Settles O17: the next state by `State.commitReg_eq`, the decoded words by their opcode and funct. -/
theorem mfloCopiesLo : Obligations.MfloCopiesLo := by
  unfold Obligations.MfloCopiesLo
  refine ⟨fun rs rt rd shamt s => ?_, fun w hw => ?_⟩
  · rw [exec_mflo, State.commitReg_eq]
  · obtain ⟨hop, hfn⟩ := opcode_funct_of_rtype_row (funct := 18) hw
    exact ⟨_, _, _, decode_eq_instr.2 (.mflo hop hfn)⟩

end Sys2Proof
end

section
/-! J and JAL (R100, R101): the words that decode to the two, and what they leave in the state. -/

namespace Sys2Proof

open Sys2Proof.Machine

/-- The words of an I-type or J-type row (R58) have the row's opcode, whatever their other 26 bits are. -/
theorem opcode_of_opcode_row {w : Word} {opcode : BitVec 6} (h : w &&& 0xFC000000 = opcode ++ (0 : BitVec 26)) :
    (decodeFields w).opcode = opcode :=
  (opcode_eq_of_mask (h.trans (Laws.EncodingRow.jtype 0 opcode).symm)).trans (decodeFields_encodeJ opcode 0).1

namespace Machine

variable (addr : JumpAddress) (s : State)

theorem exec_j_eq : exec (.j addr) s = .next { s with pc := BitVec.ofNat 32 addr.toNat } := by
  rw [exec_j, BitVec.ofNat_toNat, State.setPc]

theorem exec_jal_eq :
    exec (.jal addr) s = .next { s with x := s.x.set 31 s.pc, pc := BitVec.ofNat 32 addr.toNat } := by
  rw [exec_jal, BitVec.ofNat_toNat]
  rfl

/-- What the two jumps have in common: the raw field in `pc`, and the run and the memory as they were. -/
theorem exec_jump {i : Instr} (hi : i = .j addr ∨ i = .jal addr) :
    ∃ t, exec i s = .next t ∧ t.pc.toNat = addr.toNat ∧ t.run = s.run ∧ t.imem = s.imem := by
  have htarget : (BitVec.ofNat 32 addr.toNat).toNat = addr.toNat := by bv_omega
  obtain rfl | rfl := hi
  · exact ⟨_, exec_j_eq addr s, htarget, rfl, rfl⟩
  · exact ⟨_, exec_jal_eq addr s, htarget, rfl, rfl⟩

end Machine

/-- Settles O20: the next state by `exec_j_eq`, the decoded words by their opcode. -/
theorem jumpSetsPcToRawField : Obligations.JumpSetsPcToRawField := by
  unfold Obligations.JumpSetsPcToRawField
  exact ⟨exec_j_eq, fun w hw => decode_eq_instr.2 (.j (opcode_of_opcode_row (opcode := 2) hw))⟩

/-- Settles O21: the next state by `exec_jal_eq`, the decoded words by their opcode. -/
theorem jalLinksItsOwnAddress : Obligations.JalLinksItsOwnAddress := by
  unfold Obligations.JalLinksItsOwnAddress
  exact ⟨exec_jal_eq, fun w hw => decode_eq_instr.2 (.jal (opcode_of_opcode_row (opcode := 3) hw))⟩

end Sys2Proof
end

section
/-! The path of a run (43_jump.md section 3): where a jump target leads at the next step, the jump to itself, and why
the path does not depend on the registers, Hi and Lo (R102, R103). -/

namespace Sys2Proof.Machine

open Sys2Proof

section Checks

variable {s : State} (hrun : s.run = .running)
include hrun

theorem step_pastEnd (hend : s.pastEnd) : step s = .next s.halt := by
  rw [step_running hrun, if_pos hend]

theorem step_missing (hend : ¬ s.pastEnd) (hw : s.fetch = none) : step s = .next (s.raise .addressFault) := by
  simp only [step_running hrun, if_neg hend, hw]

theorem step_fetched {w : Word} {i : Instr} (hend : ¬ s.pastEnd) (hw : s.fetch = some w)
    (hd : decode w = .instr i) : step s = exec i s := by
  simp only [step_running hrun, if_neg hend, hw, hd]

end Checks

section FetchByAlignment

variable {s : State} (hwf : s.imem.wf)
include hwf

/-- No instruction is resident at an address that is no multiple of 4 (R22, R131). -/
theorem State.fetch_of_misaligned (halign : s.pc.toNat % 4 ≠ 0) : s.fetch = none := by
  rw [State.fetch, Memory.lookup_eq hwf, if_neg halign]

/-- Below NextAddr every multiple of 4 is the location of a slot, which the fetch reads (R22, R35). -/
theorem State.fetch_of_aligned (hend : ¬ s.pastEnd) (halign : s.pc.toNat % 4 = 0) :
    ∃ slot, s.imem.slots[s.pc.toNat / 4]? = some slot ∧ s.fetch = some slot.code := by
  have ⟨_, hnext, _⟩ := hwf
  have hk : s.pc.toNat / 4 < s.imem.slots.length := by
    rw [State.pastEnd, hnext, Memory.size, Config.imemStride] at hend
    omega
  refine ⟨_, List.getElem?_eq_getElem hk, ?_⟩
  rw [← Memory.lookup_slot hwf hk, State.fetch, Nat.mul_div_cancel' (Nat.dvd_of_mod_eq_zero halign)]

end FetchByAlignment

/-- Settles O37: a jump leaves the run and the memory as they were, so the next step makes the checks of R116 at the
target; in the form of R22 the fetch fails exactly at a misaligned address below NextAddr. -/
theorem jumpTargetIsCheckedByTheNextStep : Obligations.JumpTargetIsCheckedByTheNextStep := by
  unfold Obligations.JumpTargetIsCheckedByTheNextStep
  intro s addr i hrun hwf hi
  obtain ⟨t, ht, hpc, hkeep, himem⟩ := exec_jump addr s hi
  have hrunt : t.run = .running := hkeep.trans hrun
  refine ⟨t, ht, hpc, ?_⟩
  rw [← himem] at hwf ⊢
  rw [← hpc]
  split_ifs with hend hmis
  · exact step_pastEnd hrunt hend
  · exact step_missing hrunt hend (State.fetch_of_misaligned hwf hmis)
  · obtain ⟨slot, hslot, hfetch⟩ := State.fetch_of_aligned hwf hend (not_not.1 hmis)
    exact ⟨slot, hslot, hfetch, fun i' => step_fetched hrunt hend hfetch⟩

section Runs

variable {n : Nat} {s s' t : State}

theorem run_succ (h : step s = .next s') : core.run (n + 1) s = core.run n s' := by
  have h' : core.step s = .next s' := h
  simp only [Host.Core.run, h']

/-- A state that a step leaves as it is stays for any number of steps; there is no cap (D13). -/
theorem run_of_step_self (h : step s = .next s) : core.run n s = .next s := by
  induction n with
  | zero => rfl
  | succ n ih => rw [run_succ h, ih]

/-- A run that has ended answers, if anything, the state it ended in. -/
theorem run_ended_eq (hrun : s.run ≠ .running) (h : core.run n s = .next t) : t = s :=
  run_keeps (P := (· = s)) (fun u v hu hstep => by subst hu; exact step_ended_eq hrun hstep) rfl h

end Runs

section JumpToItself

variable {s : State} {addr : JumpAddress} (hrun : s.run = .running) (hend : ¬ s.pastEnd)
  (hself : addr.toNat = s.pc.toNat)
include hrun hend hself

theorem step_j_self (hw : s.fetch = some (encode (.j addr))) : step s = .next s := by
  rw [step_fetched hrun hend hw (decode_encode _), exec_j_eq, hself, BitVec.ofNat_toNat, BitVec.setWidth_eq]

theorem step_jal_self (hw : s.fetch = some (encode (.jal addr))) :
    step s = .next { s with x := s.x.set 31 s.pc } := by
  rw [step_fetched hrun hend hw (decode_encode _), exec_jal_eq, hself, BitVec.ofNat_toNat, BitVec.setWidth_eq]

end JumpToItself

/-- Settles O36: J to its own address changes nothing; the link that JAL writes at its first step is the one it writes
at every later step, so only the first changes the state. -/
theorem jumpToItselfNeverEnds : Obligations.JumpToItselfNeverEnds := by
  unfold Obligations.JumpToItselfNeverEnds
  intro s addr n hrun hpc hself
  have hend : ¬ s.pastEnd := Nat.not_le.2 hpc
  refine ⟨fun hw => run_of_step_self (step_j_self hrun hend hself hw), fun hw => ?_⟩
  have hagain : step { s with x := s.x.set 31 s.pc } = .next { s with x := s.x.set 31 s.pc } :=
    (step_jal_self (s := { s with x := s.x.set 31 s.pc }) hrun hend hself hw).trans (by rw [Vector.set_set])
  rw [run_succ (step_jal_self hrun hend hself hw), run_of_step_self hagain]

section SamePath

variable {s s' t t' : State}

/-- Every check of a step before execution reads only what states on the same path share (R116): both steps end by
the same write of `run` alone, or execute the same instruction. -/
theorem step_of_samePath (h : s.samePath s') (hrun : s.run = .running) :
    (∃ r, step s = .next { s with run := r } ∧ step s' = .next { s' with run := r }) ∨
      ∃ i, step s = exec i s ∧ step s' = exec i s' := by
  obtain ⟨hpc, hrun', himem⟩ := h
  have hend : s'.pastEnd ↔ s.pastEnd := by rw [State.pastEnd, State.pastEnd, hpc, himem]
  have hfetch : s'.fetch = s.fetch := by rw [State.fetch, State.fetch, hpc, himem]
  simp only [step_running hrun, step_running (hrun'.symm.trans hrun), hend, hfetch]
  by_cases hpast : s.pastEnd
  · simp only [if_pos hpast]; exact .inl ⟨_, rfl, rfl⟩
  · simp only [if_neg hpast]
    cases s.fetch with
    | none => exact .inl ⟨_, rfl, rfl⟩
    | some w =>
      cases hd : decode w with
      | instr i => simp only [hd]; exact .inr ⟨i, rfl, rfl⟩
      | unsupportedOpcode | unsupportedFunct => simp only [hd]; exact .inl ⟨_, rfl, rfl⟩

/-- The only difference data can make to where an instruction leads is DIV's fault. -/
theorem exec_samePath {i : Instr} (h : s.samePath s') (ht : exec i s = .next t) (ht' : exec i s' = .next t') :
    t.samePath t' ∨ t.run = .faulted .divisionByZero ∨ t'.run = .faulted .divisionByZero := by
  obtain ⟨hpc, hrun, himem⟩ := h
  obtain ⟨-, rfl⟩ | ⟨hkeep, hnext⟩ := exec_raises_or_completes ht
  · exact .inr (.inl rfl)
  obtain ⟨-, rfl⟩ | ⟨hkeep', hnext'⟩ := exec_raises_or_completes ht'
  · exact .inr (.inr rfl)
  refine .inl ⟨?_, ?_, ?_⟩
  · rw [hnext, hnext', hpc]
  · rw [hkeep, hkeep', hrun]
  · rw [exec_imem ht, exec_imem ht', himem]

theorem step_samePath (h : s.samePath s') (ht : step s = .next t) (ht' : step s' = .next t') :
    t.samePath t' ∨ t.run = .faulted .divisionByZero ∨ t'.run = .faulted .divisionByZero := by
  have ⟨hpc, hrun', himem⟩ := h
  by_cases hrun : s.run = .running
  · obtain ⟨r, hs, hs'⟩ | ⟨i, hs, hs'⟩ := step_of_samePath h hrun
    · rw [hs] at ht; rw [hs'] at ht'
      cases ht; cases ht'
      exact .inl ⟨hpc, rfl, himem⟩
    · exact exec_samePath h (hs ▸ ht) (hs' ▸ ht')
  · rw [step_ended_eq hrun ht, step_ended_eq (hrun' ▸ hrun) ht']
    exact .inl h

end SamePath

/-- Settles O38, by induction on the number of steps: a step keeps the two machines on the same path or one of them ends
in DivisionByZero, and there its run stays. -/
theorem pathDoesNotDependOnData : Obligations.PathDoesNotDependOnData := by
  unfold Obligations.PathDoesNotDependOnData
  intro n
  induction n with
  | zero => intro s s' t t' h ht ht'; cases ht; cases ht'; exact .inl h
  | succ n ih =>
    intro s s' t t' h ht ht'
    obtain ⟨u, hu, hrest⟩ := run_succ_cases ht
    obtain ⟨u', hu', hrest'⟩ := run_succ_cases ht'
    obtain hpath | hdiv | hdiv := step_samePath h hu hu'
    · exact ih u u' t t' hpath hrest hrest'
    · have hend : t = u := run_ended_eq (by simp [hdiv]) hrest
      exact .inr (.inl (hend ▸ hdiv))
    · have hend : t' = u' := run_ended_eq (by simp [hdiv]) hrest'
      exact .inr (.inr (hend ▸ hdiv))

end Sys2Proof.Machine
end

section
/-! How a step of a running state ends (R114, R116, R138): it halts exactly past the end, and it raises a fault exactly
where the state shows the cause of that fault. -/

namespace Sys2Proof.Machine

open Sys2Proof

variable {s t : State} {k : RunFault}

/-- The only fault an instruction raises itself is DIV's, with a zero divisor; every other end keeps the run state. -/
theorem exec_keeps_run_or_divides_by_zero {i : Instr} (h : exec i s = .next t) :
    t.run = s.run ∨
      t.run = .faulted .divisionByZero ∧ ∃ rs rt rd shamt, i = .div rs rt rd shamt ∧ s.readReg rt = 0 := by
  cases i with
  | div rs rt rd shamt =>
    rw [exec_div] at h
    split at h <;> cases h
    · exact .inr ⟨rfl, rs, rt, rd, shamt, rfl, ‹_›⟩
    · exact .inl rfl
  | _ => cases h; exact .inl rfl

section FromRunning

variable (hrun : s.run = .running)
include hrun

theorem pastEnd_of_step_halted (h : step s = .next t) (hhalt : t.run = .halted) : s.pastEnd := by
  cases step_cases hrun h with
  | halts hend _ => exact hend
  | missing _ _ ht | badOpcode _ _ _ _ ht | badFunct _ _ _ _ ht => subst ht; cases hhalt
  | executes _ _ _ _ _ ht =>
    obtain hkeep | ⟨hfault, -⟩ := exec_keeps_run_or_divides_by_zero ht
    · rw [hkeep, hrun] at hhalt; cases hhalt
    · rw [hfault] at hhalt; cases hhalt

theorem faultCause_of_step_faulted (h : step s = .next t) (hfault : t.run = .faulted k) : s.faultCause k := by
  cases step_cases hrun h with
  | halts _ ht => subst ht; cases hfault
  | missing hend hw ht => subst ht; cases hfault; exact ⟨Nat.not_le.1 hend, hw⟩
  | badOpcode w hend hw hd ht =>
    subst ht; cases hfault
    exact ⟨Nat.not_le.1 hend, w, hw, decode_eq_unsupportedOpcode.1 hd⟩
  | badFunct w hend hw hd ht =>
    subst ht; cases hfault
    exact ⟨Nat.not_le.1 hend, w, hw, decode_eq_unsupportedFunct.1 hd⟩
  | executes w _ hend hw hd ht =>
    obtain hkeep | ⟨hdiv, rs, rt, rd, shamt, rfl, hzero⟩ := exec_keeps_run_or_divides_by_zero ht
    · rw [hkeep, hrun] at hfault; cases hfault
    · rw [hdiv] at hfault; cases hfault
      cases decode_eq_instr.1 hd with
      | div ho hf => exact ⟨Nat.not_le.1 hend, w, hw, ho, hf, hzero⟩

theorem step_of_faultCause (hcause : s.faultCause k) : step s = .next (s.raise k) := by
  obtain ⟨hpc, hcause⟩ := hcause
  have hend : ¬ s.pastEnd := Nat.not_le.2 hpc
  cases k with
  | addressFault => exact step_missing hrun hend hcause
  | unsupportedOpcode =>
    obtain ⟨w, hw, hop⟩ := hcause
    exact step_unsupportedOpcode hrun hpc hw (decode_eq_unsupportedOpcode.2 hop)
  | unsupportedFunct =>
    obtain ⟨w, hw, hfields⟩ := hcause
    exact step_unsupportedFunct hrun hpc hw (decode_eq_unsupportedFunct.2 hfields)
  | divisionByZero =>
    obtain ⟨w, hw, ho, hf, hzero⟩ := hcause
    rw [step_fetched hrun hend hw (decode_eq_instr.2 (.div ho hf)), exec_div, if_pos hzero]

theorem step_halted_iff (h : step s = .next t) : t.run = .halted ↔ s.pastEnd := by
  refine ⟨pastEnd_of_step_halted hrun h, fun hend => ?_⟩
  rw [step_pastEnd hrun hend] at h
  cases h; rfl

/-- The causes are the checks in their order (R116, R138), so this one equivalence tells every fault of a step. -/
theorem step_faulted_iff (h : step s = .next t) : t.run = .faulted k ↔ s.faultCause k := by
  refine ⟨faultCause_of_step_faulted hrun h, fun hcause => ?_⟩
  rw [step_of_faultCause hrun hcause] at h
  cases h; rfl

end FromRunning

/-- Settles O30: the halt check comes before everything else, and no other end of a step is a halt. -/
theorem haltsExactlyPastTheEnd : Obligations.HaltsExactlyPastTheEnd := by
  unfold Obligations.HaltsExactlyPastTheEnd
  exact fun s hrun => ⟨step_pastEnd hrun, fun t => pastEnd_of_step_halted hrun⟩

/-- Settles O33, by `step_halted_iff` and `step_faulted_iff`: the cause of AddressFault is the failed lookup. -/
theorem faultKindIsDecidedInOrder : Obligations.FaultKindIsDecidedInOrder := by
  unfold Obligations.FaultKindIsDecidedInOrder
  exact fun s t hrun h => ⟨step_halted_iff hrun h, step_faulted_iff hrun h, step_faulted_iff hrun h,
    step_faulted_iff hrun h, step_faulted_iff hrun h⟩

end Sys2Proof.Machine
end

section
/-! The machine against the spec's pseudocode (R110, R111, R113): the Execution Unit's arithmetic in the numbers of R6,
then `execute` and `commit` per instruction, then the step. -/

namespace Sys2Proof

open Sys2Proof.Machine

section Arithmetic

variable (a b : Word)

theorem add_eq_ofNat : a + b = BitVec.ofNat 32 (a.toNat + b.toNat) := by
  rw [BitVec.ofNat_add, BitVec.ofNat_toNat, BitVec.ofNat_toNat, BitVec.setWidth_eq, BitVec.setWidth_eq]

theorem mul_eq_ofNat : a * b = BitVec.ofNat 32 (a.toNat * b.toNat) := by
  rw [BitVec.ofNat_mul, BitVec.ofNat_toNat, BitVec.ofNat_toNat, BitVec.setWidth_eq, BitVec.setWidth_eq]

theorem ofInt_toNat : BitVec.ofInt 32 (a.toNat : Int) = a := by
  rw [BitVec.ofInt_natCast, BitVec.ofNat_toNat, BitVec.setWidth_eq]

theorem sub_eq_ofInt : a - b = BitVec.ofInt 32 (a.toNat - b.toNat) := by
  rw [Int.sub_eq_add_neg, BitVec.ofInt_add, BitVec.ofInt_neg, ofInt_toNat, ofInt_toNat, BitVec.sub_eq_add_neg]

/-- ADDI's sum; sign extension keeps the signed reading (R56). -/
theorem add_signExtend_eq_ofInt (imm : Immediate) :
    a + imm.signExtend 32 = BitVec.ofInt 32 (a.toNat + imm.toInt) := by
  rw [BitVec.ofInt_add, ofInt_toNat, BitVec.signExtend]

end Arithmetic

/-- What MULT's commit writes: Lo and `pc`, not Hi (D14). -/
theorem Machine.State.commitLo_eq (s : State) (v : Word) : s.commitLo v = { s with lo := v, pc := s.pc + 4 } := rfl

namespace Reference

variable {d : DecodedInstruction} {i : Instr} {s : State} {w : Word}

/-- The spec's `commit(res, d, S)` over all its results, with the fault entry of its `step` for a raised fault. -/
def commit (r : Result) (d : DecodedInstruction) (s : State) : State :=
  match r with
  | .raises k => s.raise k
  | .value v => commitValue v d s
  | .quotRem q r => commitQuotRem q r s

theorem step_pastEnd (hend : s.pastEnd) : step s = s.halt := if_pos hend

theorem step_missing (hend : ¬ s.pastEnd) (hw : s.fetch = none) : step s = s.raise .addressFault := by
  rw [State.fetch] at hw
  rw [step, if_neg hend, hw]
  rfl

theorem step_fetched (hend : ¬ s.pastEnd) (hw : s.fetch = some w) :
    step s = commit (execute (decodeFields w) s) (decodeFields w) s := by
  rw [State.fetch] at hw
  rw [step, if_neg hend, hw]
  rfl

theorem execute_unsupportedOpcode (h : select d = .unsupportedOpcode) : execute d s = .raises .unsupportedOpcode := by
  obtain ⟨h0, h2, h3, h8, h12⟩ := select_unsupportedOpcode.1 h
  rw [execute, if_neg h0, if_neg (not_or.2 ⟨h2, h3⟩), if_neg h8, if_neg h12]

theorem execute_unsupportedFunct (h : select d = .unsupportedFunct) : execute d s = .raises .unsupportedFunct := by
  obtain ⟨ho, h33, h35, h25, h27, h16, h18⟩ := select_unsupportedFunct.1 h
  rw [execute, if_pos ho, if_neg h33, if_neg h35, if_neg h25, if_neg h27, if_neg h16, if_neg h18]

theorem execute_div (ho : d.opcode = 0) (hf : d.funct = 27) :
    execute d s =
      if s.readReg d.rt = 0 then .raises .divisionByZero
      else .quotRem (quotientOf (s.readReg d.rs) (s.readReg d.rt)) (remainderOf (s.readReg d.rs) (s.readReg d.rt)) := by
  rw [execute, ho, hf]
  rfl

/-- A selected instruction does what `execute` and `commit` do with the record it was selected from. -/
theorem exec_eq_commit_execute (h : SelectCase d i) (s : State) : exec i s = .next (commit (execute d s) d s) := by
  cases h with
  | add ho hf => simp [execute, commit, commitValue, ho, hf, exec_add, State.commitReg_eq, ← add_eq_ofNat]
  | sub ho hf => simp [execute, commit, commitValue, ho, hf, exec_sub, State.commitReg_eq, ← sub_eq_ofInt]
  | mult ho hf => simp [execute, commit, commitValue, ho, hf, exec_mult, State.commitLo_eq, ← mul_eq_ofNat]
  | div ho hf =>
    rw [exec_div, execute_div ho hf]
    by_cases hzero : s.readReg d.rt = 0
    · rw [if_pos hzero, if_pos hzero, commit]
    · rw [if_neg hzero, if_neg hzero, commit, commitQuotRem, State.commitDiv_eq]
  | mfhi ho hf => simp [execute, commit, commitValue, ho, hf, exec_mfhi, State.commitReg_eq]
  | mflo ho hf => simp [execute, commit, commitValue, ho, hf, exec_mflo, State.commitReg_eq]
  | addi ho => simp [execute, commit, commitValue, ho, exec_addi, State.commitReg_eq, ← add_signExtend_eq_ofInt]
  | andi ho => simp [execute, commit, commitValue, ho, exec_andi, State.commitReg_eq, BitVec.signExtend]
  | j ho => simp [execute, commit, commitValue, ho, exec_j_eq]
  | jal ho => simp [execute, commit, commitValue, ho, exec_jal_eq]

end Reference

/-- Settles O29: the two steps make the same checks in the same order, and a fetched word comes to the same end in each
of the three answers of the dispatch. -/
theorem stepFollowsThePseudocode : Obligations.StepFollowsThePseudocode := by
  unfold Obligations.StepFollowsThePseudocode
  intro s hrun
  by_cases hend : s.pastEnd
  · rw [step_pastEnd hrun hend, Reference.step_pastEnd hend]
  cases hw : s.fetch with
  | none => rw [step_missing hrun hend hw, Reference.step_missing hend hw]
  | some w =>
    rw [Reference.step_fetched hend hw]
    cases hd : decode w with
    | instr i =>
      rw [step_fetched hrun hend hw hd, Reference.exec_eq_commit_execute (decode_eq_instr.1 hd)]
    | unsupportedOpcode =>
      rw [step_unsupportedOpcode hrun (Nat.not_le.1 hend) hw hd, Reference.execute_unsupportedOpcode hd,
        Reference.commit]
    | unsupportedFunct =>
      rw [step_unsupportedFunct hrun (Nat.not_le.1 hend) hw hd, Reference.execute_unsupportedFunct hd, Reference.commit]

end Sys2Proof
end

section
/-! The faults of a run (60_exceptions.md): what a faulting step leaves (R135), where AddressFault is raised (R131), and
DIV's own fault (R134). -/

namespace Sys2Proof.Machine

open Sys2Proof

variable {s t : State}

section FromRunning

variable {k : RunFault} (hrun : s.run = .running)
include hrun

/-- Every fault of a step is entered by `State.raise`: the cause that the fault shows tells the step's whole answer. -/
theorem eq_raise_of_step_faulted (h : step s = .next t) (hfault : t.run = .faulted k) : t = s.raise k := by
  rw [step_of_faultCause hrun (faultCause_of_step_faulted hrun h hfault)] at h
  cases h; rfl

theorem step_eq_raise_iff : step s = .next (s.raise k) ↔ s.faultCause k :=
  ⟨fun h => faultCause_of_step_faulted hrun h rfl, step_of_faultCause hrun⟩

end FromRunning

/-- In the form of R22 the slots below NextAddr stand at every multiple of 4 and nowhere else, so only a misaligned
address is missing there. -/
theorem addressFault_cause_iff (hwf : s.imem.wf) :
    s.faultCause .addressFault ↔ s.pc.toNat < s.imem.nextAddr ∧ s.pc.toNat % 4 ≠ 0 := by
  refine and_congr_right fun hpc => ⟨fun hmissing halign => ?_, State.fetch_of_misaligned hwf⟩
  obtain ⟨slot, -, hfetch⟩ := State.fetch_of_aligned hwf (Nat.not_le.2 hpc) halign
  cases hmissing.symm.trans hfetch

/-- DIV with a zero divisor enters the fault before anything is committed (R134). -/
theorem exec_div_of_zero {rs rt rd : RegIdx} {shamt : Shamt} (hzero : s.readReg rt = 0) :
    exec (.div rs rt rd shamt) s = .next (s.raise .divisionByZero) := by
  rw [exec_div, if_pos hzero]

/-- Settles O31: a step raises AddressFault exactly at its cause, which for a contiguous memory is a misaligned `pc`
below NextAddr. -/
theorem addressFaultExactlyWhenMisaligned : Obligations.AddressFaultExactlyWhenMisaligned := by
  unfold Obligations.AddressFaultExactlyWhenMisaligned
  exact fun s hrun hwf => (step_eq_raise_iff hrun).trans (addressFault_cause_iff hwf)

/-- Settles O34: `State.raise` is the one way a step enters a fault, and it writes only `run`. -/
theorem faultsArePrecise : Obligations.FaultsArePrecise := by
  unfold Obligations.FaultsArePrecise
  exact fun s t k hrun => eq_raise_of_step_faulted hrun

/-- Settles O15: the fault is the meaning's first test, and the step that fetches the DIV answers what its meaning
does. -/
theorem divByZeroRaises : Obligations.DivByZeroRaises := by
  unfold Obligations.DivByZeroRaises
  refine ⟨fun rs rt rd shamt s => exec_div_of_zero, fun rs rt rd shamt s hrun hpc hw hzero => ?_⟩
  rw [step_fetched hrun (Nat.not_le.2 hpc) hw (decode_encode _)]
  exact exec_div_of_zero hzero

end Sys2Proof.Machine
end

section
/-! No Hi/Lo latency (R159): what the moves from Lo and Hi read, and what MULT and DIV leave in the registers. -/

namespace Sys2Proof.Machine

open Sys2Proof

/-- A register committed is read back, register 0 being no exception (R11). -/
theorem State.readReg_commitReg_self (s : State) (i : RegIdx) (v : Word) : (s.commitReg i v).readReg i = v := by
  rw [State.readReg_commitReg, if_pos rfl]

/-- DIV with a divisor that is not zero commits quotient and remainder (R82). -/
theorem exec_div_of_ne_zero {s : State} {rs rt rd : RegIdx} {shamt : Shamt} (hdiv : s.readReg rt ≠ 0) :
    exec (.div rs rt rd shamt) s = .next (s.commitDiv Config.divWritesHi
      (quotientOf (s.readReg rs) (s.readReg rt)) (remainderOf (s.readReg rs) (s.readReg rt))) := by
  rw [exec_div, if_neg hdiv]

/-- DIV writes no general register, whether it faults or not. -/
theorem exec_div_keeps_readReg (rs rt rd : RegIdx) (shamt : Shamt) (s : State) :
    ∃ t, exec (.div rs rt rd shamt) s = .next t ∧ ∀ j, t.readReg j = s.readReg j := by
  by_cases hzero : s.readReg rt = 0
  · exact ⟨_, exec_div_of_zero hzero, fun j => State.readReg_raise s j _⟩
  · exact ⟨_, exec_div_of_ne_zero hzero, fun j => State.readReg_commitDiv s j _ _ _⟩

/-- In every state MFLO moves the Lo and MFHI the Hi of that very state. -/
theorem mflo_mfhi_move_lo_hi (ra rb rd : RegIdx) (shamt : Shamt) (s : State) :
    ∃ u v, exec (.mflo ra rb rd shamt) s = .next u ∧ u.readReg rd = s.lo ∧
      exec (.mfhi ra rb rd shamt) s = .next v ∧ v.readReg rd = s.hi :=
  ⟨_, _, exec_mflo .., State.readReg_commitReg_self .., exec_mfhi .., State.readReg_commitReg_self ..⟩

/-- In every state MULT and DIV leave what a register reads. -/
theorem mult_div_keep_readReg (rs rt rd j : RegIdx) (shamt : Shamt) (s : State) :
    ∃ u v, exec (.mult rs rt rd shamt) s = .next u ∧ u.readReg j = s.readReg j ∧
      exec (.div rs rt rd shamt) s = .next v ∧ v.readReg j = s.readReg j := by
  obtain ⟨v, hdiv, hkeep⟩ := exec_div_keeps_readReg rs rt rd shamt s
  exact ⟨_, v, exec_mult .., State.readReg_commitLo .., hdiv, hkeep j⟩

/-- Settles O27: the second instruction of each pair is taken in the state the first one left, where the moves read Lo
and Hi, and MULT and DIV keep the register moved to. -/
theorem hiLoHaveNoLatency : Obligations.HiLoHaveNoLatency := by
  unfold Obligations.HiLoHaveNoLatency
  refine ⟨fun rs rt rd rd' ra rb sh sh' s => ?_, fun rs rt rd rd' ra rb sh sh' s hdiv => ?_,
    fun rs rt rd rd' ra rb sh sh' s => ?_, fun rs rt rd rd' ra rb sh sh' s => ?_⟩
  · obtain ⟨u, v, hmoves⟩ := mflo_mfhi_move_lo_hi ra rb rd' sh' (s.commitLo (s.readReg rs * s.readReg rt))
    exact ⟨_, u, v, exec_mult .., hmoves⟩
  · obtain ⟨u, v, hmoves⟩ := mflo_mfhi_move_lo_hi ra rb rd' sh' (s.commitDiv Config.divWritesHi
      (quotientOf (s.readReg rs) (s.readReg rt)) (remainderOf (s.readReg rs) (s.readReg rt)))
    exact ⟨_, u, v, exec_div_of_ne_zero hdiv, hmoves⟩
  · obtain ⟨u, v, hkeep⟩ := mult_div_keep_readReg rs rt rd rd' sh (s.commitReg rd' s.lo)
    rw [State.readReg_commitReg_self] at hkeep
    exact ⟨_, u, v, exec_mflo .., hkeep⟩
  · obtain ⟨u, v, hkeep⟩ := mult_div_keep_readReg rs rt rd rd' sh (s.commitReg rd' s.hi)
    rw [State.readReg_commitReg_self] at hkeep
    exact ⟨_, u, v, exec_mfhi .., hkeep⟩

end Sys2Proof.Machine
end

section
/-! The invariant of the machine (R17, R22, R119, R131 to R134): it holds after reset and after a launch, every step
keeps it, and so it explains the end of every run. -/

namespace Sys2Proof.Machine

open Sys2Proof

variable {s t : State}

theorem Memory.nextAddr_le_of_wf {m : Memory} (hm : m.wf) : m.nextAddr ≤ 128 := by
  obtain ⟨-, hnext, hcap⟩ := hm
  simp only [Config.imemStride, Config.imemSlots] at hnext hcap
  omega

/-- An address inside the instruction memory is small and a jump's field has 26 bits, so bits 31 to 26 stay
zero (R17). -/
theorem nextPc_lt (i : Instr) {pc : Word} (hpc : pc.toNat < 128) : (i.nextPc pc).toNat < 2 ^ 26 := by
  have hadvance : (pc + 4).toNat < 2 ^ 26 := by bv_omega
  cases i with
  | j addr | jal addr =>
    have htarget : (addr.setWidth 32).toNat < 2 ^ 26 := by bv_omega
    simpa only [nextPc_j, nextPc_jal] using htarget
  | _ => exact hadvance

/-- A fault is entered with nothing but `run` written, so an aborted run still shows what aborted it (R135, R137). -/
theorem raise_keeps_inv {k : RunFault} (hs : s.Inv) (hcause : s.faultCause k) : (s.raise k).Inv := by
  obtain ⟨hwf, hpc, -⟩ := hs
  exact ⟨hwf, hpc, hcause⟩

/-- The ends of a step write only `run`, where the invariant asks for what made the step end so; a completed instruction
goes on Running. -/
theorem step_keeps_inv (hs : s.Inv) (h : step s = .next t) : t.Inv := by
  by_cases hrun : s.run = .running
  · have ⟨hwf, hpc, _⟩ := hs
    cases step_cases hrun h with
    | halts hend ht => subst ht; exact ⟨hwf, hpc, hend⟩
    | missing _ _ ht | badOpcode _ _ _ _ ht | badFunct _ _ _ _ ht =>
      subst ht; exact raise_keeps_inv hs ((step_eq_raise_iff hrun).1 h)
    | executes _ i hend _ _ ht =>
      obtain ⟨-, rfl⟩ | ⟨hkeep, hnext⟩ := exec_raises_or_completes ht
      · exact raise_keeps_inv hs ((step_eq_raise_iff hrun).1 h)
      · have hinside : s.pc.toNat < 128 := (Nat.not_le.1 hend).trans_le (Memory.nextAddr_le_of_wf hwf)
        refine ⟨exec_imem ht ▸ hwf, hnext ▸ nextPc_lt i hinside, ?_⟩
        rw [hkeep, hrun]
        trivial
  · rw [step_ended_eq hrun h]
    exact hs

theorem run_keeps_inv {n : Nat} (hs : s.Inv) (h : core.run n s = .next t) : t.Inv :=
  run_keeps (P := State.Inv) (fun _ _ => step_keeps_inv) hs h

theorem launchWith_inv {x : Vector Word 32} {hi lo : Word} {ws : List Word} (h : launchWith x hi lo ws = .next s) :
    s.Inv := by
  obtain ⟨m, hload, rfl⟩ := launchWith_cases h
  exact ⟨(Memory.appendAll_initialize hload).1, Nat.two_pow_pos 26, trivial⟩

/-- Settles O45, by `step_keeps_inv`. -/
theorem stepKeepsInvariant : Obligations.StepKeepsInvariant := by
  unfold Obligations.StepKeepsInvariant
  exact fun _ _ => step_keeps_inv

/-- Settles O46: the empty memory has its form, `pc` is 0, and the run has not ended. -/
theorem resetHasInvariant : Obligations.ResetHasInvariant := by
  unfold Obligations.ResetHasInvariant
  exact ⟨State.reset_imem_wf, by decide, trivial⟩

/-- Settles O47: a launch has the invariant, and a run keeps what every step keeps. -/
theorem runsFromLaunchHaveInvariant : Obligations.RunsFromLaunchHaveInvariant := by
  unfold Obligations.RunsFromLaunchHaveInvariant
  exact fun x hi lo ws s t n hlaunch hrun => run_keeps_inv (launchWith_inv hlaunch) hrun

/-- Settles O48: the invariant at the end of the run says how it ended. -/
theorem endOfRunIsExplained : Obligations.EndOfRunIsExplained := by
  unfold Obligations.EndOfRunIsExplained
  intro s t n hs hrun
  obtain ⟨-, -, hend⟩ := run_keeps_inv hs hrun
  refine ⟨fun hhalt => ?_, fun k hfault => ?_, run_imem hrun⟩
  · rwa [hhalt] at hend
  · rwa [hfault] at hend

end Sys2Proof.Machine
end

section
/-! The arithmetic instructions (files 40 to 42): the wrapped result in the numbers of R6, and the commit that takes
it to its destination. -/

namespace Sys2Proof.Machine

open Sys2Proof

section Readings

variable (a b : Word)

theorem add_eq_ofInt_toInt : a + b = BitVec.ofInt 32 (a.toInt + b.toInt) := by
  rw [BitVec.ofInt_add, BitVec.ofInt_toInt, BitVec.ofInt_toInt]

theorem sub_eq_ofInt_toInt : a - b = BitVec.ofInt 32 (a.toInt - b.toInt) := by
  rw [Int.sub_eq_add_neg, BitVec.ofInt_add, BitVec.ofInt_neg, BitVec.ofInt_toInt, BitVec.ofInt_toInt,
    BitVec.sub_eq_add_neg]

theorem mul_eq_ofInt_toInt : a * b = BitVec.ofInt 32 (a.toInt * b.toInt) := by
  rw [BitVec.ofInt_mul, BitVec.ofInt_toInt, BitVec.ofInt_toInt]

theorem toNat_sub_eq_emod : ((a - b).toNat : Int) = (a.toNat - b.toNat : Int) % 2 ^ 32 := by
  rw [BitVec.toNat_sub]
  omega

/-- ADDI's sum in signed readings; sign extension keeps the signed reading (R56). -/
theorem add_signExtend_eq_ofInt_toInt (imm : Immediate) :
    a + imm.signExtend 32 = BitVec.ofInt 32 (a.toInt + imm.toInt) := by
  rw [BitVec.ofInt_add, BitVec.ofInt_toInt, BitVec.signExtend]

/-- The bits of a sign-extended immediate (R56): those of the field, bit 15 copied into every bit above it. -/
theorem getLsbD_signExtend_imm (imm : Immediate) {j : Nat} (hj : j < 32) :
    (imm.signExtend 32).getLsbD j = imm.getLsbD (if j < 15 then j else 15) := by
  rw [BitVec.getLsbD_signExtend, BitVec.msb_eq_getLsbD_last, decide_eq_true hj, Bool.true_and]
  by_cases hlow : j < 15
  · rw [if_pos hlow, if_pos (by omega)]
  · rw [if_neg hlow]
    by_cases hsign : j < 16
    · rw [if_pos hsign, show j = 15 by omega]
    · rw [if_neg hsign]

end Readings

section SignedDivision

variable (a : Int) {b : Int}

theorem abs_tmod_lt_abs (hb : b ≠ 0) : |a.tmod b| < |b| := by
  have hlt := Nat.mod_lt a.natAbs (Int.natAbs_pos.2 hb)
  rw [Int.abs_eq_natAbs, Int.abs_eq_natAbs, Int.natAbs_tmod]
  omega

theorem tmod_eq_zero_or_sign_eq (b : Int) : a.tmod b = 0 ∨ (a.tmod b).sign = a.sign := by
  by_cases hdvd : b ∣ a
  · exact .inl (Int.tmod_eq_zero_of_dvd hdvd)
  · exact .inr (by rw [Int.sign_tmod, if_neg hdvd])

end SignedDivision

/-- Settles O10: addition of words is addition of either reading, reduced. -/
theorem addWritesWrappedSum : Obligations.AddWritesWrappedSum := by
  unfold Obligations.AddWritesWrappedSum
  exact fun rs rt rd shamt s => ⟨_, BitVec.toNat_add _ _, add_eq_ofInt_toInt _ _, exec_add ..⟩

/-- Settles O11: subtraction of words is subtraction of either reading, reduced. -/
theorem subWritesWrappedDifference : Obligations.SubWritesWrappedDifference := by
  unfold Obligations.SubWritesWrappedDifference
  exact fun rs rt rd shamt s => ⟨_, toNat_sub_eq_emod _ _, sub_eq_ofInt_toInt _ _, exec_sub ..⟩

/-- Settles O12: multiplication of words is multiplication of either reading, reduced, and its commit writes Lo
alone. -/
theorem multWritesLowProductToLo : Obligations.MultWritesLowProductToLo := by
  unfold Obligations.MultWritesLowProductToLo
  exact fun rs rt rd shamt s => ⟨_, BitVec.toNat_mul _ _, mul_eq_ofInt_toInt _ _, exec_mult ..⟩

/-- Settles O13: the quotient is the one rounded toward zero, whose remainder is smaller than the divisor and takes the
dividend's sign. -/
theorem divWritesSignedQuotient : Obligations.DivWritesSignedQuotient := by
  unfold Obligations.DivWritesSignedQuotient
  intro rs rt rd shamt s hdiv
  have hb : (s.readReg rt).toInt ≠ 0 := fun h => hdiv (BitVec.toInt_inj.1 h)
  exact ⟨_, _, (Int.tdiv_mul_add_tmod _ _).symm, abs_tmod_lt_abs _ hb, tmod_eq_zero_or_sign_eq _ _,
    exec_div_of_ne_zero hdiv⟩

/-- Settles O14: the two results of the overflowing pair are computed, and its divisor is not zero. -/
theorem divOverflowWraps : Obligations.DivOverflowWraps := by
  unfold Obligations.DivOverflowWraps
  intro rs rt rd shamt s hrs hrt
  have hdiv : s.readReg rt ≠ 0 := by rw [hrt]; decide
  have hquot : quotientOf 0x80000000 0xFFFFFFFF = 0x80000000 := by decide
  have hrem : remainderOf 0x80000000 0xFFFFFFFF = 0 := by decide
  rw [exec_div_of_ne_zero hdiv, hrs, hrt, hquot, hrem, State.commitDiv_eq]

/-- Settles O18, by `add_signExtend_eq_ofInt_toInt`. -/
theorem addiAddsSignedImmediate : Obligations.AddiAddsSignedImmediate := by
  unfold Obligations.AddiAddsSignedImmediate
  intro rs rt imm s
  rw [exec_addi, add_signExtend_eq_ofInt_toInt, State.commitReg_eq]

/-- Settles O19, bit by bit: the operand's bits are those of `getLsbD_signExtend_imm`. -/
theorem andiAndsSignExtendedImmediate : Obligations.AndiAndsSignExtendedImmediate := by
  unfold Obligations.AndiAndsSignExtendedImmediate
  refine fun rs rt imm s => ⟨_, fun j hj => ?_, exec_andi ..⟩
  rw [BitVec.getLsbD_and, getLsbD_signExtend_imm imm hj]

/-- Settles O26: what a register reads after a commit makes no exception for register 0. -/
theorem registerZeroIsOrdinary : Obligations.RegisterZeroIsOrdinary := by
  unfold Obligations.RegisterZeroIsOrdinary
  intro rs rt r shamt imm s
  refine ⟨_, _, exec_add .., State.readReg_commitReg_self .., fun r' hr' => ?_, exec_addi .., ?_⟩
  · rw [State.readReg_commitReg, if_neg hr'.symm]
  · rw [State.readReg_commitReg_self, State.readReg_commitReg_self, BitVec.signExtend]

end Sys2Proof.Machine
end

section
/-! The frame of an instruction and what its results depend on (10_state.md sections 2 and 5), one part of the state
at a time. -/

namespace Sys2Proof.Machine

open Sys2Proof

section Frame

variable {i : Instr} {s t : State}

/-- Only the destination register is written (R13). -/
theorem exec_keeps_readReg (h : exec i s = .next t) {r : RegIdx} (hr : i.dest ≠ some r) :
    t.readReg r = s.readReg r := by
  cases i with
  | add rs rt rd shamt | sub rs rt rd shamt | mfhi rs rt rd shamt | mflo rs rt rd shamt =>
    cases h
    rw [State.readReg_commitReg, if_neg (fun hrd => hr (congrArg some hrd))]
  | addi rs rt imm | andi rs rt imm =>
    cases h
    rw [State.readReg_commitReg, if_neg (fun hrt => hr (congrArg some hrt))]
  | jal addr =>
    rw [exec_jal] at h
    cases h
    rw [State.readReg_setPc, State.readReg_writeReg, if_neg (fun hlink => hr (congrArg some hlink))]
  | mult rs rt rd shamt | j addr => cases h; rfl
  | div rs rt rd shamt =>
    obtain ⟨u, hu, hkeep⟩ := exec_div_keeps_readReg rs rt rd shamt s
    rw [h] at hu
    cases hu
    exact hkeep r

/-- Only MULT and DIV write Lo (R19). -/
theorem exec_keeps_lo (h : exec i s = .next t) (hi : i.writesLo = false) : t.lo = s.lo := by
  cases i with
  | mult rs rt rd shamt | div rs rt rd shamt => cases hi
  | _ => cases h; rfl

/-- Hi is kept, or a DIV whose parameter allows it has written the remainder there (R19, D5). -/
theorem exec_keeps_hi_or_writes_remainder (h : exec i s = .next t) :
    t.hi = s.hi ∨ ∃ rs rt rd shamt, i = .div rs rt rd shamt ∧ Config.divWritesHi = true ∧
      t.hi = remainderOf (s.readReg rs) (s.readReg rt) := by
  cases i with
  | div rs rt rd shamt =>
    rw [exec_div] at h
    split at h <;> cases h
    · exact .inl rfl
    · rw [State.commitDiv_hi]
      by_cases hparam : Config.divWritesHi = true
      · exact .inr ⟨rs, rt, rd, shamt, rfl, hparam, if_pos hparam⟩
      · exact .inl (if_neg hparam)
  | _ => cases h; exact .inl rfl

theorem exec_keeps_hi (h : exec i s = .next t) (hi : i.isDiv = false) : t.hi = s.hi := by
  obtain hkeep | ⟨rs, rt, rd, shamt, rfl, -⟩ := exec_keeps_hi_or_writes_remainder h
  · exact hkeep
  · cases hi

end Frame

/-- The same end of an instruction in two states: the same commit of the same result, or DIV's fault in both. -/
inductive SameEnd (i : Instr) (s s' : State) : State → State → Prop where
  | register (dest : RegIdx) (v : Word) (hdest : i.dest = some dest) (hlo : i.writesLo = false) :
      SameEnd i s s' (s.commitReg dest v) (s'.commitReg dest v)
  | product (v : Word) (hdest : i.dest = none) : SameEnd i s s' (s.commitLo v) (s'.commitLo v)
  | quotient (q r : Word) (hdest : i.dest = none) :
      SameEnd i s s' (s.commitDiv Config.divWritesHi q r) (s'.commitDiv Config.divWritesHi q r)
  | fault (hdest : i.dest = none) : SameEnd i s s' (s.raise .divisionByZero) (s'.raise .divisionByZero)
  | jump (target : Word) (hdest : i.dest = none) (hlo : i.writesLo = false) :
      SameEnd i s s' (s.setPc target) (s'.setPc target)
  | link (v target : Word) (hdest : i.dest = some 31) (hlo : i.writesLo = false) :
      SameEnd i s s' ((s.writeReg 31 v).setPc target) ((s'.writeReg 31 v).setPc target)

section Sources

variable {i : Instr} {s s' t t' : State}

theorem readReg_pair_eq {rs rt : RegIdx} (h : ∀ r ∈ [rs, rt], s.readReg r = s'.readReg r) :
    s.readReg rs = s'.readReg rs ∧ s.readReg rt = s'.readReg rt := by
  simpa using h

/-- States that agree in what an instruction reads are left by the same end of it. -/
theorem exec_sameEnd (hpc : s.pc = s'.pc) (hsrc : ∀ r ∈ i.sources, s.readReg r = s'.readReg r)
    (hhi : i.readsHi = true → s.hi = s'.hi) (hlo : i.readsLo = true → s.lo = s'.lo)
    (ht : exec i s = .next t) (ht' : exec i s' = .next t') : SameEnd i s s' t t' := by
  cases i with
  | add rs rt rd shamt | sub rs rt rd shamt =>
    obtain ⟨hrs, hrt⟩ := readReg_pair_eq hsrc
    cases ht; cases ht'
    rw [hrs, hrt]
    exact .register rd _ rfl rfl
  | mult rs rt rd shamt =>
    obtain ⟨hrs, hrt⟩ := readReg_pair_eq hsrc
    cases ht; cases ht'
    rw [hrs, hrt]
    exact .product _ rfl
  | div rs rt rd shamt =>
    obtain ⟨hrs, hrt⟩ := readReg_pair_eq hsrc
    rw [exec_div] at ht ht'
    rw [hrs, hrt] at ht
    by_cases hzero : s'.readReg rt = 0
    · rw [if_pos hzero] at ht ht'
      cases ht; cases ht'
      exact .fault rfl
    · rw [if_neg hzero] at ht ht'
      cases ht; cases ht'
      exact .quotient _ _ rfl
  | mfhi rs rt rd shamt =>
    cases ht; cases ht'
    rw [hhi rfl]
    exact .register rd _ rfl rfl
  | mflo rs rt rd shamt =>
    cases ht; cases ht'
    rw [hlo rfl]
    exact .register rd _ rfl rfl
  | addi rs rt imm | andi rs rt imm =>
    have hrs := List.forall_mem_singleton.1 hsrc
    cases ht; cases ht'
    rw [hrs]
    exact .register rt _ rfl rfl
  | j addr => cases ht; cases ht'; exact .jump _ rfl rfl
  | jal addr =>
    cases ht; cases ht'
    rw [hpc]
    exact .link _ _ rfl rfl

theorem SameEnd.pc_eq (h : SameEnd i s s' t t') (hpc : s.pc = s'.pc) : t.pc = t'.pc := by
  cases h with
  | register | product | quotient => exact congrArg (· + 4) hpc
  | fault => exact hpc
  | jump | link => rfl

theorem SameEnd.run_eq (h : SameEnd i s s' t t') (hrun : s.run = s'.run) : t.run = t'.run := by
  cases h with
  | fault => rfl
  | _ => exact hrun

theorem SameEnd.dest_eq (h : SameEnd i s s' t t') {r : RegIdx} (hr : i.dest = some r) : t.readReg r = t'.readReg r := by
  cases h with
  | register dest v hdest =>
    rw [hdest] at hr; cases hr
    rw [State.readReg_commitReg_self, State.readReg_commitReg_self]
  | link v target hdest =>
    rw [hdest] at hr; cases hr
    simp only [State.readReg_setPc, State.readReg_writeReg, if_true]
  | product _ hdest | quotient _ _ hdest | fault hdest | jump _ hdest => rw [hdest] at hr; cases hr

theorem SameEnd.lo_eq (h : SameEnd i s s' t t') (hi : i.writesLo = true) (hrun : t.run = .running) : t.lo = t'.lo := by
  cases h with
  | product | quotient => rfl
  | fault => cases hrun
  | register _ _ _ hlo | jump _ _ hlo | link _ _ _ hlo => rw [hlo] at hi; cases hi

theorem SameEnd.hi_eq_or_kept (h : SameEnd i s s' t t') : t.hi = t'.hi ∨ t.hi = s.hi ∧ t'.hi = s'.hi := by
  cases h with
  | quotient q r =>
    rw [State.commitDiv_hi, State.commitDiv_hi]
    by_cases hparam : Config.divWritesHi = true
    · exact .inl (by rw [if_pos hparam, if_pos hparam])
    · exact .inr ⟨if_neg hparam, if_neg hparam⟩
  | _ => exact .inr ⟨rfl, rfl⟩

end Sources

/-- Settles O22, part by part; `run` changes only by `exec_keeps_run_or_divides_by_zero`. -/
theorem instructionsWriteOnlyTheirDestinations : Obligations.InstructionsWriteOnlyTheirDestinations := by
  unfold Obligations.InstructionsWriteOnlyTheirDestinations
  intro i s t h
  have himem : t.imem = s.imem := exec_imem h
  refine ⟨fun r => exec_keeps_readReg h, exec_keeps_lo h, exec_keeps_hi h, ?_, exec_keeps_run_or_divides_by_zero h,
    himem, fun a => by rw [himem]⟩
  obtain hkeep | ⟨_, _, _, _, _, hparam, _⟩ := exec_keeps_hi_or_writes_remainder h
  · exact .inl hkeep
  · exact .inr hparam

/-- Settles O23: the two states are left by the same end of the instruction, which writes the same values. -/
theorem resultsDependOnlyOnSources : Obligations.ResultsDependOnlyOnSources := by
  unfold Obligations.ResultsDependOnlyOnSources
  intro i s s' t t' hrun hrun' hpc hsrc hhi hlo ht ht'
  have h := exec_sameEnd hpc hsrc hhi hlo ht ht'
  exact ⟨h.pc_eq hpc, h.run_eq (hrun.trans hrun'.symm), fun r => h.dest_eq, h.lo_eq, fun _ => h.hi_eq_or_kept⟩

/-- Settles O25: a step that completes no instruction writes only `run`, and an instruction has its frame. -/
theorem hiAndLoWriters : Obligations.HiAndLoWriters := by
  unfold Obligations.HiAndLoWriters
  intro s t h
  by_cases hrun : s.run = .running
  · cases step_cases hrun h with
    | halts _ ht | missing _ _ ht | badOpcode _ _ _ _ ht | badFunct _ _ _ _ ht =>
      subst ht; exact ⟨.inl rfl, .inl rfl⟩
    | executes w i _ hw hd ht =>
      constructor
      · cases hi : i.writesLo with
        | true => exact .inr ⟨w, i, hw, hd, hi⟩
        | false => exact .inl (exec_keeps_lo ht hi)
      · obtain hkeep | ⟨rs, rt, rd, shamt, rfl, hparam, hrem⟩ := exec_keeps_hi_or_writes_remainder ht
        · exact .inl hkeep
        · exact .inr ⟨w, rs, rt, rd, shamt, hw, hd, hparam, hrem⟩
  · rw [step_ended_eq hrun h]
    exact ⟨.inl rfl, .inl rfl⟩

end Sys2Proof.Machine
end

section
/-! The ends of a step and of a run (44_step_cycle.md section 2, 10_state.md section 6), reset and launch (R24, R152),
and the worked examples of the decoder. -/

namespace Sys2Proof.Machine

open Sys2Proof

variable {s : State} {k : RunFault}

theorem step_of_halted (hrun : s.run = .halted) : step s = .next s := by
  simp only [step, beforeExec, hrun]

theorem step_of_faulted (hrun : s.run = .faulted k) : step s = .fault (.aborted k) := by
  simp only [step, beforeExec, hrun]

theorem run_succ_of_fault {n : Nat} {r : Fault} (h : step s = .fault r) : core.run (n + 1) s = .fault r := by
  have h' : core.step s = .fault r := h
  simp only [Host.Core.run, h']

theorem launchWith_of_loaded {x : Vector Word 32} {hi lo : Word} {ws : List Word} {m : Memory}
    (h : Memory.initialize.appendAll ws = .next m) :
    launchWith x hi lo ws = .next { x := x, hi := hi, lo := lo, pc := 0, run := .running, imem := m } := by
  simp only [launchWith, h]

theorem launchWith_of_overfull {x : Vector Word 32} {hi lo : Word} {ws : List Word}
    (h : Memory.initialize.appendAll ws = .fault .capacityExceeded) :
    launchWith x hi lo ws = .fault .capacityExceeded := by
  simp only [launchWith, h]

/-- Every register holds zero after reset (D8, log 2). -/
@[simp] theorem State.readReg_reset (r : RegIdx) : State.reset.readReg r = 0 := Vector.getElem_replicate r.isLt

/-- Settles O32, by the cases of a step; an instruction that does not go on Running is a DIV that faults. -/
theorem stepHasThreeOutcomes : Obligations.StepHasThreeOutcomes := by
  unfold Obligations.StepHasThreeOutcomes
  intro s hrun
  obtain ⟨t, h⟩ := step_answers hrun
  cases step_cases hrun h with
  | halts _ ht => subst ht; exact .inl h
  | missing _ _ ht | badOpcode _ _ _ _ ht | badFunct _ _ _ _ ht => subst ht; exact .inr (.inl ⟨_, h⟩)
  | executes w i _ hw hd ht =>
    obtain ⟨-, rfl⟩ | ⟨hkeep, -⟩ := exec_raises_or_completes ht
    · exact .inr (.inl ⟨_, h⟩)
    · exact .inr (.inr ⟨w, i, t, hw, hd, ht, h, hkeep.trans hrun⟩)

/-- Settles O35: a halted state is a fixed point of the step, and an aborted run has no step. -/
theorem endedRunsStayEnded : Obligations.EndedRunsStayEnded := by
  unfold Obligations.EndedRunsStayEnded
  exact ⟨fun s n hrun => run_of_step_self (step_of_halted hrun),
    fun s n k hrun => run_succ_of_fault (step_of_faulted hrun), fun s t n hrun => run_ended_eq hrun⟩

/-- Settles O28, by `step_fetched`. -/
theorem stepRunsDecodedInstruction : Obligations.StepRunsDecodedInstruction := by
  unfold Obligations.StepRunsDecodedInstruction
  exact fun s w i hrun hpc hw hd => step_fetched hrun (Nat.not_le.2 hpc) hw hd

/-- Settles O43: the state after reset is past the end of its empty program. -/
theorem resetValues : Obligations.ResetValues := by
  unfold Obligations.ResetValues
  exact ⟨rfl, rfl, rfl, rfl, rfl, Memory.lookup_initialize, State.readReg_reset, rfl, rfl,
    step_pastEnd rfl (Nat.zero_le _)⟩

/-- Settles O44: the launch is what the loader's appends make of it. -/
theorem launchLoadsTheProgram : Obligations.LaunchLoadsTheProgram := by
  unfold Obligations.LaunchLoadsTheProgram
  refine fun x hi lo ws => ⟨fun hfit => ?_, fun hover => ?_⟩
  · obtain ⟨m, hload, -⟩ := Memory.appendAll_answers (m := Memory.initialize) (ws := ws)
      (by simpa [Program.wellFormed] using hfit)
    obtain ⟨hwf, hcodes⟩ := Memory.appendAll_initialize hload
    exact ⟨_, launchWith_of_loaded hload, rfl, rfl, rfl, rfl, rfl, hcodes, hwf⟩
  · exact launchWith_of_overfull
      (Memory.appendAll_of_overfull (by simp) (by simpa [Program.wellFormed] using hover))

/-- Settles O8: the decoder runs on the eleven words. -/
theorem workedExampleWordsDecode : Obligations.WorkedExampleWordsDecode := by
  unfold Obligations.WorkedExampleWordsDecode
  decide

end Sys2Proof.Machine
end
